-- ==== Sys2Proof/Word.lean ====
section
/-! DEFINITION. The word types of the port: a command word, a register of the register space and an x-coordinate are 32 bits (00_scope.md R9), a byte of the strings IN and OUT is 8. -/

namespace Sys2Proof

/-- A 32-bit word: a transaction's data, a command word, `CFG_T`, `XIN` and their like (00_scope.md R9). -/
abbrev Word := BitVec 32

/-- One byte of the strings `IN` and `OUT`, and the width of an opcode and of `CODE`. -/
abbrev Byte := BitVec 8

/-- A string of 32 bytes, index 0 the most significant (00_scope.md R9 `BYTES`, R11). -/
abbrev Bytes32 := Vector Byte 32

end Sys2Proof
end

