-- ==== Sys2Proof/Syntax.lean ====
section
/-! DEFINITION. The 18 commands as syntax, one constructor per row of spec/opcode_table.json (30_encoding.md R95). -/

namespace Sys2Proof

/-- The number of a field register, 0 to 15 (10_state.md R21; a 4-bit field of the command word, 30_encoding.md R91). -/
abbrev Reg := Fin 16

/-- A command. A register operand is a `Reg`; an index operand is a natural number that WellFormed.lean bounds by the width of `IDX`.
The operands stand in the order of the assembler (30_encoding.md R110). -/
inductive Instr where
  /-- `NOP` (41_data_movement.md R166) -/
  | nop
  /-- `MADD Fd, Fa, Fb` (40_field_arithmetic.md R130) -/
  | madd (d a b : Reg)
  /-- `MSUB Fd, Fa, Fb` (R131) -/
  | msub (d a b : Reg)
  /-- `MMUL Fd, Fa, Fb` (R132) -/
  | mmul (d a b : Reg)
  /-- `MINV Fd, Fa` (R133) -/
  | minv (d a : Reg)
  /-- `MDIV Fd, Fa, Fb` (R134) -/
  | mdiv (d a b : Reg)
  /-- `LDF Fd` (41_data_movement.md R155) -/
  | ldf (d : Reg)
  /-- `STF Fa` (R157) -/
  | stf (a : Reg)
  /-- `MVTC i, Fa` (R160) -/
  | mvtc (i : Nat) (a : Reg)
  /-- `MVTY i, Fa` (R161) -/
  | mvty (i : Nat) (a : Reg)
  /-- `MVFY Fd, i` (R162) -/
  | mvfy (d : Reg) (i : Nat)
  /-- `SETX i` (R163) -/
  | setx (i : Nat)
  /-- `GETX i` (R164) -/
  | getx (i : Nat)
  /-- `PEVAL Fd` (42_polynomial_evaluator.md R182) -/
  | peval (d : Reg)
  /-- `SPLIT` (R183) -/
  | split
  /-- `LBASIS Fd, i` (43_lagrange_interpolator.md R204) -/
  | lbasis (d : Reg) (i : Nat)
  /-- `COMBINE Fd` (R205) -/
  | combine (d : Reg)
  /-- `ZERO` (41_data_movement.md R167) -/
  | zero
  deriving DecidableEq, Repr

end Sys2Proof
end

