-- ==== Sys2Proof/WellFormed.lean ====
section
/-! DEFINITION. Which commands can be written as a word: an index operand fits the 12-bit field IDX (30_encoding.md R91, R94). Register operands fit by their type. -/

namespace Sys2Proof

/-- An index operand fits `IDX`, 0 to 4095 (30_encoding.md R91). Whether it is below NMAX is a value test of the command, not of the encoding (R96).
DESIGN CHOICE that an index is a natural number bounded here, safe: log entry 18. -/
def idxFits (i : Nat) : Bool := decide (i < 4096)

/-- The command has a command word. -/
def Instr.wf : Instr → Bool
  | .nop => true
  | .madd _ _ _ => true
  | .msub _ _ _ => true
  | .mmul _ _ _ => true
  | .minv _ _ => true
  | .mdiv _ _ _ => true
  | .ldf _ => true
  | .stf _ => true
  | .mvtc i _ => idxFits i
  | .mvty i _ => idxFits i
  | .mvfy _ i => idxFits i
  | .setx i => idxFits i
  | .getx i => idxFits i
  | .peval _ => true
  | .split => true
  | .lbasis _ i => idxFits i
  | .combine _ => true
  | .zero => true

end Sys2Proof
end

