-- ==== Sys2Proof/Decode.lean ====
section
/-! DEFINITION. The command word: its fields, the opcode map, the decoder, the encoder (30_encoding.md R90 to R96). -/

namespace Sys2Proof

/-! ### The word's fields -/

/-- The five fields of a command word (30_encoding.md R91). -/
structure Fields where
  opc : Byte
  fd : Reg
  fa : Reg
  fb : Reg
  idx : Nat
  deriving DecidableEq, Repr

/-- A 4-bit register field at bit `lo` of the word. -/
def regField (w : Word) (lo : Nat) : Reg := ⟨(w.extractLsb' lo 4).toNat, (w.extractLsb' lo 4).isLt⟩

/-- `OPC = w[31:24]`, `FD = w[23:20]`, `FA = w[19:16]`, `FB = w[15:12]`, `IDX = w[11:0]` (30_encoding.md R91). -/
def fieldsOf (w : Word) : Fields where
  opc := w.extractLsb' 24 8
  fd := regField w 20
  fa := regField w 16
  fb := regField w 12
  idx := (w.extractLsb' 0 12).toNat

/-- `w = OPC·2^24 + FD·2^20 + FA·2^16 + FB·2^12 + IDX` (30_encoding.md R91). -/
def packFields (f : Fields) : Word :=
  BitVec.ofNat 32 (f.opc.toNat * 2 ^ 24 + f.fd.val * 2 ^ 20 + f.fa.val * 2 ^ 16 + f.fb.val * 2 ^ 12 + f.idx)

/-! ### Formats -/

/-- The four fields a format may use, beside `OPC` (30_encoding.md R91). -/
inductive Operand where
  | FD | FA | FB | IDX
  deriving DecidableEq, Repr

/-- The number that stands in a field. -/
def Fields.operand (f : Fields) : Operand → Nat
  | .FD => f.fd.val
  | .FA => f.fa.val
  | .FB => f.fb.val
  | .IDX => f.idx

/-- The bits of a field within the word (30_encoding.md R91). -/
def Operand.mask : Operand → Word
  | .FD => 0x00F00000
  | .FA => 0x000F0000
  | .FB => 0x0000F000
  | .IDX => 0x00000FFF

/-- The eight formats (30_encoding.md R93). -/
inductive Format where
  | Z | R3 | R2 | RD | RA | RDI | RAI | I
  deriving DecidableEq, Repr

/-- The column "must be zero" of 30_encoding.md R93. -/
def Format.mustBeZero : Format → List Operand
  | .Z => [.FD, .FA, .FB, .IDX]
  | .R3 => [.IDX]
  | .R2 => [.FB, .IDX]
  | .RD => [.FA, .FB, .IDX]
  | .RA => [.FD, .FB, .IDX]
  | .RDI => [.FA, .FB]
  | .RAI => [.FD, .FB]
  | .I => [.FD, .FA, .FB]

/-! ### The opcode map -/

/-- The six units of the block (00_scope.md R2). A unit has no state; the opcode map names the unit of each command. -/
inductive CoreUnit where
  | modularAdder | modularMultiplier | modularInverse | gfFieldArithmeticUnit | polynomialEvaluator | lagrangeInterpolator
  deriving DecidableEq, Repr

/-- One row of the opcode map (30_encoding.md R95); `make` builds the command from the word's fields. -/
structure Row where
  opc : Byte
  mnemonic : String
  format : Format
  unit : CoreUnit
  make : Fields → Instr

/-- The opcode map, the rows of 30_encoding.md R95 in the table's order. -/
def opcodeTable : List Row :=
  [⟨0x00, "NOP", .Z, .gfFieldArithmeticUnit, fun _ => .nop⟩,
   ⟨0x01, "MADD", .R3, .modularAdder, fun f => .madd f.fd f.fa f.fb⟩,
   ⟨0x02, "MSUB", .R3, .modularAdder, fun f => .msub f.fd f.fa f.fb⟩,
   ⟨0x03, "MMUL", .R3, .modularMultiplier, fun f => .mmul f.fd f.fa f.fb⟩,
   ⟨0x04, "MINV", .R2, .modularInverse, fun f => .minv f.fd f.fa⟩,
   ⟨0x05, "MDIV", .R3, .gfFieldArithmeticUnit, fun f => .mdiv f.fd f.fa f.fb⟩,
   ⟨0x10, "LDF", .RD, .gfFieldArithmeticUnit, fun f => .ldf f.fd⟩,
   ⟨0x11, "STF", .RA, .gfFieldArithmeticUnit, fun f => .stf f.fa⟩,
   ⟨0x12, "MVTC", .RAI, .polynomialEvaluator, fun f => .mvtc f.idx f.fa⟩,
   ⟨0x13, "MVTY", .RAI, .lagrangeInterpolator, fun f => .mvty f.idx f.fa⟩,
   ⟨0x14, "MVFY", .RDI, .polynomialEvaluator, fun f => .mvfy f.fd f.idx⟩,
   ⟨0x15, "SETX", .I, .lagrangeInterpolator, fun f => .setx f.idx⟩,
   ⟨0x16, "GETX", .I, .polynomialEvaluator, fun f => .getx f.idx⟩,
   ⟨0x20, "PEVAL", .RD, .polynomialEvaluator, fun f => .peval f.fd⟩,
   ⟨0x21, "SPLIT", .Z, .polynomialEvaluator, fun _ => .split⟩,
   ⟨0x30, "LBASIS", .RDI, .lagrangeInterpolator, fun f => .lbasis f.fd f.idx⟩,
   ⟨0x31, "COMBINE", .RD, .lagrangeInterpolator, fun f => .combine f.fd⟩,
   ⟨0x7F, "ZERO", .Z, .gfFieldArithmeticUnit, fun _ => .zero⟩]

/-- The column `match` of the map: the opcode with every other bit zero. -/
def Row.matchWord (r : Row) : Word := r.opc.setWidth 32 <<< 24

/-- The column `mask` of the map: `OPC` and every must-be-zero field. -/
def Row.maskWord (r : Row) : Word := r.format.mustBeZero.foldl (fun m o => m ||| o.mask) 0xFF000000

/-! ### The decoder -/

/-- Why a word is illegal (30_encoding.md R92 steps 1 and 2). -/
inductive DecodeError where
  | unlistedOpcode (opc : Byte)
  | nonzeroField (row : String) (field : Operand)
  deriving DecidableEq, Repr

/-- Decoding (30_encoding.md R92): look `OPC` up, then test the fields the format lists under "must be zero". Total on all 2^32 words. -/
def decode (w : Word) : Except DecodeError Instr :=
  match opcodeTable.find? (fun r => r.opc == (fieldsOf w).opc) with
  | none => .error (.unlistedOpcode (fieldsOf w).opc)
  | some r =>
    match r.format.mustBeZero.find? (fun o => (fieldsOf w).operand o != 0) with
    | some o => .error (.nonzeroField r.mnemonic o)
    | none => .ok (r.make (fieldsOf w))

/-- What the decoder reads from an instruction of the opcode table given as a number: a command is one 32-bit word, the value of one
write to `CMD` (30_encoding.md R90), and bits above `nbits` are zero. DESIGN CHOICE for `nbits` other than 32, safe: log entry 16. -/
def decodeTableWord (nbits w : Nat) : Option Instr :=
  match decode (BitVec.ofNat 32 (w % 2 ^ nbits)) with
  | .ok i => some i
  | .error _ => none

/-! ### The encoder -/

/-- The opcode of a command (30_encoding.md R95). -/
def Instr.opcode : Instr → Byte
  | .nop => 0x00
  | .madd _ _ _ => 0x01
  | .msub _ _ _ => 0x02
  | .mmul _ _ _ => 0x03
  | .minv _ _ => 0x04
  | .mdiv _ _ _ => 0x05
  | .ldf _ => 0x10
  | .stf _ => 0x11
  | .mvtc _ _ => 0x12
  | .mvty _ _ => 0x13
  | .mvfy _ _ => 0x14
  | .setx _ => 0x15
  | .getx _ => 0x16
  | .peval _ => 0x20
  | .split => 0x21
  | .lbasis _ _ => 0x30
  | .combine _ => 0x31
  | .zero => 0x7F

/-- The fields of a command's word; a field the command does not use is zero (30_encoding.md R91, R95). -/
def Instr.fields (i : Instr) : Fields :=
  match i with
  | .nop => ⟨i.opcode, 0, 0, 0, 0⟩
  | .madd d a b => ⟨i.opcode, d, a, b, 0⟩
  | .msub d a b => ⟨i.opcode, d, a, b, 0⟩
  | .mmul d a b => ⟨i.opcode, d, a, b, 0⟩
  | .minv d a => ⟨i.opcode, d, a, 0, 0⟩
  | .mdiv d a b => ⟨i.opcode, d, a, b, 0⟩
  | .ldf d => ⟨i.opcode, d, 0, 0, 0⟩
  | .stf a => ⟨i.opcode, 0, a, 0, 0⟩
  | .mvtc idx a => ⟨i.opcode, 0, a, 0, idx⟩
  | .mvty idx a => ⟨i.opcode, 0, a, 0, idx⟩
  | .mvfy d idx => ⟨i.opcode, d, 0, 0, idx⟩
  | .setx idx => ⟨i.opcode, 0, 0, 0, idx⟩
  | .getx idx => ⟨i.opcode, 0, 0, 0, idx⟩
  | .peval d => ⟨i.opcode, d, 0, 0, 0⟩
  | .split => ⟨i.opcode, 0, 0, 0, 0⟩
  | .lbasis d idx => ⟨i.opcode, d, 0, 0, idx⟩
  | .combine d => ⟨i.opcode, d, 0, 0, 0⟩
  | .zero => ⟨i.opcode, 0, 0, 0, 0⟩

/-- The command word of a well-formed command (30_encoding.md R91, R95). -/
def encode (i : Instr) : Word := packFields i.fields

end Sys2Proof
end

