-- ==== Sys2Proof/Machine/Field.lean ====
section
/-! DEFINITION. The pure functions of the field layer over GF(P) and the byte boundary (40_field_arithmetic.md R120 to R127, 41_data_movement.md R150, R151). P is an argument. -/

namespace Sys2Proof.Machine

/-- `fadd(a, b) = (a + b) mod P` (R121). -/
def fadd (P a b : Nat) : Nat := (a + b) % P

/-- `fsub(a, b) = (a − b) mod P` with the exact integer difference and the floor modulus (R122, 00_scope.md R12). -/
def fsub (P a b : Nat) : Nat := (((a : Int) - (b : Int)) % (P : Int)).toNat

/-- `fmul(a, b) = (a · b) mod P`, the product exact (R123). -/
def fmul (P a b : Nat) : Nat := a * b % P

/-- The square of a field element. -/
def fsquare (P a : Nat) : Nat := fmul P a a

/-- `a ^ e mod P` by repeated squaring, right for every exponent below `2 ^ fuel`. -/
def powMod (P a : Nat) : Nat → Nat → Nat
  | 0, _ => 1 % P
  | fuel + 1, e =>
    if e = 0 then 1 % P
    else if e % 2 = 1 then fmul P (fsquare P (powMod P a fuel (e / 2))) a
    else fsquare P (powMod P a fuel (e / 2))

/-- `finv(a) = a^(P−2) mod P` (R124). The fuel 1023 covers every exponent, since P < 2^1023 (00_scope.md R10): log entry 10. -/
def finv (P a : Nat) : Nat := powMod P a 1023 (P - 2)

/-- `fdiv(a, b) = fmul(a, finv(b))` (R125). -/
def fdiv (P a b : Nat) : Nat := fmul P a (finv P b)

/-- `norm(s, m)`: the residue of `m` or of `−m` (R126). -/
def norm (P : Nat) (s : BitVec 1) (m : Nat) : Nat :=
  if s = 0 then m % P else ((-(m : Int)) % (P : Int)).toNat

/-- `be(B)`, the big-endian value of a byte string (00_scope.md R11, 20_memory.md R66). -/
def bigEndian (B : Bytes32) : Nat := B.toList.foldl (fun acc b => acc * 256 + b.toNat) 0

/-- `bytes_be(v, 32)`: byte `i` is `floor(v / 256^(31−i)) mod 256` (00_scope.md R11, 41_data_movement.md R151, R157). -/
def bytesBE (v : Nat) : Bytes32 := Vector.ofFn fun i => BitVec.ofNat 8 (v / 256 ^ (31 - i.val))

end Sys2Proof.Machine
end

