-- ==== Sys2Proof/Config/Primality.lean ====
section
/-! DEFINITION. The certificate that the default modulus P0 = 2^256 + 297 is prime (92_eei_decisions.md, "Primality certificate for P0"), a Pratt certificate checked by the kernel; Config.lean needs it to build the default configuration. -/

namespace Sys2Proof.Primality

/-- `g ^ e mod p` by repeated squaring, for exponents below `2 ^ fuel`; used only to check the certificate. -/
def power (p g : Nat) : Nat → Nat → Nat
  | 0, _ => 1 % p
  | fuel + 1, e =>
    if e = 0 then 1 % p
    else
      let h := power p g fuel (e / 2)
      if e % 2 = 1 then h * h % p * g % p else h * h % p

theorem power_eq (p g : Nat) : ∀ fuel e, e < 2 ^ fuel → power p g fuel e = g ^ e % p := by
  intro fuel
  induction fuel with
  | zero => intro e he; have : e = 0 := by simpa using he
            simp [power, this]
  | succ k ih =>
    intro e he
    by_cases h0 : e = 0
    · simp [power, h0]
    have hhalf : e / 2 < 2 ^ k := by rw [Nat.pow_succ] at he; omega
    have hsq : power p g k (e / 2) * power p g k (e / 2) % p = g ^ (e / 2 + e / 2) % p := by
      rw [ih _ hhalf, ← Nat.mul_mod, ← Nat.pow_add]
    by_cases h1 : e % 2 = 1
    · have he' : e / 2 + e / 2 + 1 = e := by omega
      simp only [power, h0, h1, if_true, if_false, hsq]
      rw [Nat.mod_mul_mod, ← pow_succ, he']
    · have he' : e / 2 + e / 2 = e := by omega
      simp only [power, h0, h1, if_false, hsq, he']

/-- One line of the certificate: the witness `g` and the prime factors `qs` of `p - 1`, with multiplicity. -/
def line (p g : Nat) (qs : List Nat) : Bool :=
  decide (1 < p) && decide (p < 2 ^ 260) && decide (qs.prod = p - 1) && decide (power p g 260 (p - 1) = 1)
    && qs.all fun q => decide (power p g 260 ((p - 1) / q) ≠ 1)

/-- The Lucas–Pratt criterion in the form of the certificate's lines. -/
theorem prime_of_line {p g : Nat} {qs : List Nat} (h : line p g qs = true) (hq : ∀ q ∈ qs, q.Prime) : p.Prime := by
  simp only [line, Bool.and_eq_true, decide_eq_true_eq, List.all_eq_true] at h
  obtain ⟨⟨⟨⟨hp, hlt⟩, hprod⟩, hone⟩, hne⟩ := h
  have hmod : 1 % p = 1 := Nat.mod_eq_of_lt hp
  refine lucas_primality p (g : ZMod p) ?_ ?_
  · have h := hone
    rw [power_eq p g 260 (p - 1) (by omega)] at h
    have := (ZMod.natCast_eq_natCast_iff' (g ^ (p - 1)) 1 p).2 (by rw [h, hmod])
    simpa using this
  · intro q hqp hdvd heq
    have hmem : q ∈ qs := by
      rw [← hprod] at hdvd
      obtain ⟨r, hr, hqr⟩ := (hqp.prime.dvd_prod_iff).1 hdvd
      rwa [(Nat.prime_dvd_prime_iff_eq hqp (hq r hr)).1 hqr]
    apply hne q hmem
    have hle : (p - 1) / q < 2 ^ 260 := lt_of_le_of_lt (Nat.div_le_self _ _) (by omega)
    rw [power_eq p g 260 _ hle]
    have h' : ((g ^ ((p - 1) / q) : Nat) : ZMod p) = ((1 : Nat) : ZMod p) := by push_cast; exact heq
    have := (ZMod.natCast_eq_natCast_iff' _ 1 p).1 h'
    rwa [hmod] at this

/-- The primes below 100 that the certificate takes as known. -/
def base : List Nat := [2, 3, 5, 7, 11, 13, 23, 29, 31, 37, 41, 47, 53, 67, 79, 83, 89]

theorem base_prime : ∀ q ∈ base, q.Prime := by norm_num [base]

/-- The certificate's lines `(p, g, qs)`, each before the lines that use its `p`; the factors of `p - 1` with multiplicity. -/
def certificate : List (Nat × Nat × List Nat) :=
  [(157, 5, [2, 2, 3, 13]),
   (167, 5, [2, 83]),
   (181, 2, [2, 2, 3, 3, 5]),
   (251, 6, [2, 5, 5, 5]),
   (257, 3, [2, 2, 2, 2, 2, 2, 2, 2]),
   (271, 6, [2, 3, 3, 3, 5]),
   (521, 3, [2, 2, 2, 5, 13]),
   (1151, 17, [2, 5, 5, 23]),
   (1489, 14, [2, 2, 2, 2, 3, 31]),
   (1877, 2, [2, 2, 7, 67]),
   (2069, 2, [2, 2, 11, 47]),
   (2333, 2, [2, 2, 11, 53])]
  ++ [(3253, 2, [2, 2, 3, 271]),
   (93887, 5, [2, 13, 23, 157]),
   (94483, 2, [2, 3, 3, 29, 181]),
   (115663, 6, [2, 3, 37, 521]),
   (211643, 2, [2, 29, 41, 89]),
   (325301, 2, [2, 2, 5, 5, 3253]),
   (423287, 5, [2, 211643]),
   (462653, 2, [2, 2, 115663]),
   (925307, 2, [2, 462653]),
   (1975949, 2, [2, 2, 13, 13, 37, 79]),
   (2126933, 2, [2, 2, 257, 2069]),
   (12954299, 2, [2, 7, 925307])]
  ++ [(25908599, 13, [2, 12954299]),
   (9729922537253, 2, [2, 2, 93887, 25908599]),
   (106508275638671, 7, [2, 5, 53, 94483, 2126933]),
   (7472339746659043, 3, [2, 3, 1489, 423287, 1975949]),
   (3016876668783623441, 3, [2, 2, 2, 2, 5, 23, 1151, 1877, 2333, 325301]),
   (1200461269659761894123, 5, [2, 13, 37, 167, 7472339746659043]),
   (2956539135407950972181, 2, [2, 2, 5, 7, 7, 3016876668783623441]),
   (474233203066845416735444346211990045207, 3, [2, 3, 251, 106508275638671, 2956539135407950972181]),
   (2 ^ 256 + 297, 5, [2, 2, 2, 3, 13, 67, 9729922537253, 1200461269659761894123, 474233203066845416735444346211990045207])]

/-- Every line holds, and its factors are known: primes of `known`, or the `p` of an earlier line. -/
def checks : List (Nat × Nat × List Nat) → List Nat → Bool
  | [], _ => true
  | (p, g, qs) :: rest, known => line p g qs && (qs.all fun q => known.contains q) && checks rest (p :: known)

theorem prime_of_checks : ∀ (l : List (Nat × Nat × List Nat)) (known : List Nat), checks l known = true →
    (∀ q ∈ known, q.Prime) → ∀ e ∈ l, e.1.Prime
  | [], _, _, _, e, he => by cases he
  | (p, g, qs) :: rest, known, h, hk, e, he => by
    simp only [checks, Bool.and_eq_true, List.all_eq_true, List.contains_iff_mem] at h
    have hp : p.Prime := prime_of_line h.1.1 fun q hq => hk q (h.1.2 q hq)
    rcases List.mem_cons.mp he with rfl | he
    · exact hp
    · refine prime_of_checks rest (p :: known) h.2 (fun q hq => ?_) e he
      rcases List.mem_cons.mp hq with rfl | hq
      · exact hp
      · exact hk q hq

theorem certificate_checks : checks certificate base = true := by decide +kernel

theorem prime_P0 : Nat.Prime (2 ^ 256 + 297) :=
  prime_of_checks certificate base certificate_checks base_prime _ (List.mem_append_right _ (List.mem_of_getLast? rfl))

end Sys2Proof.Primality
end

