-- ==== Sys2Proof/Config.lean ====
section
/-! DEFINITION. The configuration of an instance, (P, NMAX), with the proof that it is well formed (00_scope.md R4 to R10), the default configuration and the two test configurations. -/

namespace Sys2Proof

/-- `ConfigOK(cfg)` (00_scope.md R10): P is prime, 2 ≤ NMAX ≤ 4095, NMAX < P, P < 2^1023. -/
structure ConfigOK (P NMAX : Nat) : Prop where
  prime : P.Prime
  two_le : 2 ≤ NMAX
  le_4095 : NMAX ≤ 4095
  lt_prime : NMAX < P
  lt_2_1023 : P < 2 ^ 1023

/-- The configuration of one instance, fixed when the instance is built (00_scope.md R5, R8; 70_reset_and_hazards.md R273).
It carries the proof of `ConfigOK`, so a configuration that 00_scope.md R10 wants refused cannot be built.
DESIGN CHOICE, safe: log entry 1. -/
structure Config where
  /-- The prime modulus. -/
  P : Nat
  /-- The number of entries of each of `COEF`, `SX` and `SY`, and the largest N, T and K. -/
  NMAX : Nat
  ok : ConfigOK P NMAX
  deriving DecidableEq, Repr

/-- `W`, the width of a field element: the number of bits of P (00_scope.md R7). -/
def Config.W (cfg : Config) : Nat := cfg.P.log2 + 1

/-- `PBIG`: P > 2^256 (00_scope.md R6). -/
def Config.PBIG (cfg : Config) : Bool := decide (2 ^ 256 < cfg.P)

/-- The default configuration (P0, 255) (00_scope.md R5, R8, R10). -/
def Config.default : Config where
  P := 2 ^ 256 + 297
  NMAX := 255
  ok := ⟨Primality.prime_P0, by decide, by decide, by decide +kernel, by decide +kernel⟩

/-- The test configuration TEST13 = (13, 12) (00_scope.md R10). -/
def Config.test13 : Config where
  P := 13
  NMAX := 12
  ok := ⟨by norm_num, by decide, by decide, by decide, by decide +kernel⟩

/-- The test configuration TEST257 = (257, 255) (00_scope.md R10). -/
def Config.test257 : Config where
  P := 257
  NMAX := 255
  ok := ⟨by norm_num, by decide, by decide, by decide, by decide +kernel⟩

end Sys2Proof
end

