-- ==== Sys2Proof/Machine/State.lean ====
section
/-! DEFINITION. The state of one instance as plain data (10_state.md R20), the moves and responses at its port, the reset state, and why a step can stop. -/

namespace Sys2Proof.Machine

/-- One of the memories `COEF`, `SX`, `SY`: pairs of an index and an entry, indexes strictly rising and no entry 0; an entry not listed
is 0, its reset value (10_state.md R41). Each entry has one home; Ops.lean holds every access. DESIGN CHOICE, safe: log entry 9. -/
abbrev Memory (α : Type) := List (Nat × α)

/-- What the outside does to the block: a transaction of the host (20_memory.md R61), its width in bytes, or a reset by the platform
(70_reset_and_hazards.md R270). DEDUCED that a width is a number of bytes and a written value a 32-bit word, safe: log entry 11. -/
inductive HostMove where
  /-- `MemRead(off, width)` -/
  | read (off width : Nat)
  /-- `MemWrite(off, width, v)` -/
  | write (off width : Nat) (v : Word)
  /-- reset -/
  | reset
  deriving DecidableEq, Repr

/-- The response to a transaction (20_memory.md R61): `OKAY` to a write, `OKAY` with the value to a read, `ERROR`. -/
inductive Response where
  | okay
  | value (v : Word)
  | error
  deriving DecidableEq, Repr

/-- The whole state (10_state.md R20), field names as the spec has them, with three fields of the model's own: the configuration, the
host's moves not yet accepted and the responses given so far. -/
structure State where
  /-- The model's own: the instance's constants P and NMAX. Log entry 1. -/
  cfg : Config
  /-- `F[0..15]`, field elements (R21); that each is below P is an invariant, DESIGN CHOICE, safe: log entry 8. -/
  F : Vector Nat 16
  /-- `COEF[0..NMAX−1]`, field elements (R26) -/
  COEF : Memory Nat
  /-- `SX[0..NMAX−1]`, 32-bit x-coordinates (R27) -/
  SX : Memory Word
  /-- `SY[0..NMAX−1]`, field elements (R28) -/
  SY : Memory Nat
  /-- register `CFG_T` (R29) -/
  T : Word
  /-- register `CFG_N` (R29) -/
  N : Word
  /-- register `CFG_K` (R29) -/
  K : Word
  /-- the x-coordinate going in (R30) -/
  XIN : Word
  /-- the x-coordinate coming out (R31) -/
  XOUT : Word
  /-- the sign of the staged integer (R32) -/
  INS : BitVec 1
  /-- the magnitude of the staged integer, big-endian (R33) -/
  IN : Bytes32
  /-- the encoded field element, big-endian (R34) -/
  OUT : Bytes32
  /-- the completion code of the most recent command (R25, R35) -/
  CODE : Byte
  /-- information about the most recent failure (R36) -/
  EINFO : Word
  /-- The model's own: the host's moves not yet accepted, oldest first (20_memory.md R69). DESIGN CHOICE, safe: log entry 3; several
  masters are one stream, DESIGN CHOICE, safe: log entry 15. -/
  port : List HostMove
  /-- The model's own: the responses given, oldest first (20_memory.md R61). Log entry 3. -/
  responses : List Response
  deriving DecidableEq, Repr

/-- The reset state of a configuration: every piece of state of 10_state.md R20 is 0 (R41, 70_reset_and_hazards.md R270). -/
def State.resetFor (cfg : Config) : State where
  cfg := cfg
  F := Vector.replicate 16 0
  COEF := []
  SX := []
  SY := []
  T := 0
  N := 0
  K := 0
  XIN := 0
  XOUT := 0
  INS := 0
  IN := Vector.replicate 32 0
  OUT := Vector.replicate 32 0
  CODE := 0
  EINFO := 0
  port := []
  responses := []

/-- The machine right after reset, in the default configuration (00_scope.md R5, R8). DESIGN CHOICE for the configuration: log entry 2. -/
def State.reset : State := State.resetFor Config.default

/-- Why a step faults: never. The spec has no event that stops the block: a command failure is an ordinary step with a nonzero code and a
refused transaction leaves the block ready for the next one (60_exceptions.md R240, R249, R259). DEDUCED, safe: log entry 13. -/
inductive Fault where
  deriving DecidableEq, Repr

/-- Why a step is refused. -/
inductive Refusal where
  /-- Raised by an arm of `exec` whose command has no meaning yet; no arm does. Safe. -/
  | notModelled (mnemonic : String)
  deriving DecidableEq, Repr

end Sys2Proof.Machine
end

