-- ==== Sys2Proof/Machine/Flags.lean ====
section
/-! DEFINITION. The completion code and its detail: the 13 codes, EINFO, the STATUS word, the constant words CAP and ID (10_state.md R25, R35 to R38; 60_exceptions.md R241, R246). There are no other flags (R25). -/

namespace Sys2Proof.Machine

/-- The 13 completion codes (60_exceptions.md R241). No command raises `decodeError` or `authenticationFailure`: they are the host layers'. -/
inductive CompletionCode where
  | ok
  | invalidThreshold
  | insufficientN
  | duplicateIndex
  | decodeError
  | arithmeticImpossibility
  | authenticationFailure
  | insufficientShares
  | reservedIndex
  | encodeOverflow
  | countTooLarge
  | indexRange
  | illegalCommand
  deriving DecidableEq, Repr

/-- The number of a code (60_exceptions.md R241). -/
def CompletionCode.number : CompletionCode → Byte
  | .ok => 0x00
  | .invalidThreshold => 0x01
  | .insufficientN => 0x02
  | .duplicateIndex => 0x03
  | .decodeError => 0x04
  | .arithmeticImpossibility => 0x05
  | .authenticationFailure => 0x06
  | .insufficientShares => 0x07
  | .reservedIndex => 0x08
  | .encodeOverflow => 0x09
  | .countTooLarge => 0x0A
  | .indexRange => 0x0B
  | .illegalCommand => 0x0C

/-- The codes the block can leave in `CODE` (60_exceptions.md R241: 0x04, 0x06 and 0x0D to 0xFF are never produced). -/
def producedCodes : List Byte :=
  [0x00, 0x01, 0x02, 0x03, 0x05, 0x07, 0x08, 0x09, 0x0A, 0x0B, 0x0C]

/-- `raise <Code>(a, b)`: a code and its two data (00_scope.md R13). -/
structure Failure where
  code : CompletionCode
  a : Nat := 0
  b : Nat := 0
  deriving DecidableEq, Repr

/-- `EINFO`: OPC in bits 31:24, B in 23:12, A in 11:0 (10_state.md R36). -/
def einfoWord (opc : Byte) (a b : Nat) : Word := opc ++ BitVec.ofNat 12 b ++ BitVec.ofNat 12 a

/-- What a successful command leaves: `CODE <- 0`, `EINFO <- 0` (60_exceptions.md R246, R247). -/
def State.succeed (s : State) : State := { s with CODE := CompletionCode.ok.number, EINFO := 0 }

/-- What a failing command leaves: the code and its data, and nothing else changed (60_exceptions.md R245, R246). -/
def State.fail (s : State) (opc : Byte) (f : Failure) : State :=
  { s with CODE := f.code.number, EINFO := einfoWord opc f.a f.b }

/-- `STATUS.ERRF`: 1 when `CODE ≠ 0` (10_state.md R35). -/
def State.errf (s : State) : BitVec 1 := if s.CODE = 0 then 0 else 1

/-- The word `STATUS`: bits 7:0 `CODE`, bit 8 `ERRF`, bits 31:9 zero (10_state.md R35). -/
def State.status (s : State) : Word := 0#23 ++ s.errf ++ s.CODE

/-- The constant word `CAP`: bits 11:0 NMAX, 21:12 W, bit 22 PBIG, 31:23 zero (10_state.md R37). -/
def capWord (cfg : Config) : Word :=
  0#9 ++ (if cfg.PBIG then 1#1 else 0#1) ++ BitVec.ofNat 10 cfg.W ++ BitVec.ofNat 12 cfg.NMAX

/-- The constant word `ID`, ASCII "SSS1" (10_state.md R38). -/
def idWord : Word := 0x53535331

end Sys2Proof.Machine
end

