-- ==== Sys2Proof/Machine/Ops.lean ====
section
/-! DEFINITION. The shared operations: the indexed memories and their canonical form, the register file, a command's way to its completion or its failure (the block's only exception, 60_exceptions.md R245, R249), reset, and the response of a transaction. There is no return from a failure: "There is no return command and nothing to restore" (R250). -/

namespace Sys2Proof.Machine

variable {α : Type} [OfNat α 0] [DecidableEq α]

/-! ### The memories COEF, SX, SY -/

/-- Entry `i`; an entry not listed is 0 (10_state.md R23, R41). -/
def Memory.read : Memory α → Nat → α
  | [], _ => 0
  | (k, v) :: m, i => if k = i then v else Memory.read m i

/-- `M[i] <- v`, keeping the canonical form: writing 0 unlists the entry. -/
def Memory.write : Memory α → Nat → α → Memory α
  | [], i, v => if v = 0 then [] else [(i, v)]
  | (k, w) :: m, i, v =>
    if k < i then (k, w) :: Memory.write m i v
    else if k = i then (if v = 0 then m else (i, v) :: m)
    else if v = 0 then (k, w) :: m
    else (i, v) :: (k, w) :: m

/-- `for i = 0 to n−1: M[i] <- f(i)`. -/
def Memory.writeRange (m : Memory α) (n : Nat) (f : Nat → α) : Memory α :=
  (List.range n).foldl (fun m i => Memory.write m i (f i)) m

/-- The canonical form: indexes strictly rising, no entry 0. -/
abbrev Memory.wf (m : Memory α) : Prop :=
  m.Pairwise (fun c d => c.1 < d.1) ∧ ∀ c ∈ m, c.2 ≠ 0

/-- Every listed index is below `n`. -/
abbrev Memory.within (m : Memory α) (n : Nat) : Prop := ∀ c ∈ m, c.1 < n

/-! ### The register file -/

/-- `F[i]` (10_state.md R21): 16 ordinary cells, none hardwired. -/
def State.readF (s : State) (r : Reg) : Nat := s.F[r]

/-- `F[i] <- v`. -/
def State.writeF (s : State) (r : Reg) (v : Nat) : State := { s with F := s.F.set r v }

/-! ### Completion and failure -/

/-- One command as one atomic transition (20_memory.md R70): its tests are made on the state before it and the first that fails decides
(60_exceptions.md R248); a failure changes `CODE` and `EINFO` only (R245); otherwise the writes of `effect` are made and `CODE` and
`EINFO` become 0 (R246, R247). `opc` is bits 31:24 of the command word. -/
def command (opc : Byte) (failure : State → Option Failure) (effect : State → State) (s : State) :
    Host.Outcome State Fault Refusal :=
  match failure s with
  | some f => .next (s.fail opc f)
  | none => .next (effect s).succeed

/-- A command that cannot fail once decoded (60_exceptions.md R241). -/
def cannotFail : State → Option Failure := fun _ => none

/-- `if c then raise f`. -/
def raiseIf (c : Prop) [Decidable c] (f : Failure) : Option Failure := if c then some f else none

/-! ### Reset -/

/-- Every piece of the block's state to its reset value; the configuration is no state (10_state.md R20), and the host's moves and the
responses it was given are the host's (log entry 12). -/
def State.clear (s : State) : State :=
  { State.resetFor s.cfg with port := s.port, responses := s.responses }

/-! ### Responses -/

/-- The block gives a response (20_memory.md R61). -/
def State.respond (s : State) (r : Response) : State := { s with responses := s.responses ++ [r] }

end Sys2Proof.Machine
end

