-- ==== Sys2Proof/Machine/Operands.lean ====
section
/-! DEFINITION. Every operand form of the commands: an index checked against NMAX, the staged integer (INS, IN), the staged x-coordinate, the residues of the share table, the polynomial in COEF. A field-register operand is State.readF. -/

namespace Sys2Proof.Machine

/-- The index check of `MVTC`, `MVTY`, `MVFY`, `SETX`, `GETX` (41_data_movement.md R152). -/
def State.indexFailure (i : Nat) (s : State) : Option Failure :=
  raiseIf (s.cfg.NMAX ≤ i) ⟨.indexRange, i, 0⟩

/-- `norm(INS, be(IN))`, the staged integer as a field element (41_data_movement.md R155). -/
def State.staged (s : State) : Nat := norm s.cfg.P s.INS (bigEndian s.IN)

/-- `XIN mod P` (42_polynomial_evaluator.md R182). -/
def State.xinResidue (s : State) : Nat := s.XIN.toNat % s.cfg.P

/-- `xs[j] = SX[j] mod P` (43_lagrange_interpolator.md R201). -/
def State.xs (s : State) (j : Nat) : Nat := (s.SX.read j).toNat % s.cfg.P

end Sys2Proof.Machine
end

