-- ==== Sys2Proof/Machine/Arithmetic.lean ====
section
/-! DEFINITION. The meanings of MADD, MSUB, MMUL, MINV, MDIV (40_field_arithmetic.md R130 to R134). -/

namespace Sys2Proof.Machine

/-- `MADD Fd, Fa, Fb` (R130). -/
def execMadd (d a b : Reg) (s : State) : Host.Outcome State Fault Refusal :=
  command (Instr.madd d a b).opcode cannotFail
    (fun s => s.writeF d (fadd s.cfg.P (s.readF a) (s.readF b))) s

/-- `MSUB Fd, Fa, Fb` (R131). -/
def execMsub (d a b : Reg) (s : State) : Host.Outcome State Fault Refusal :=
  command (Instr.msub d a b).opcode cannotFail
    (fun s => s.writeF d (fsub s.cfg.P (s.readF a) (s.readF b))) s

/-- `MMUL Fd, Fa, Fb` (R132). -/
def execMmul (d a b : Reg) (s : State) : Host.Outcome State Fault Refusal :=
  command (Instr.mmul d a b).opcode cannotFail
    (fun s => s.writeF d (fmul s.cfg.P (s.readF a) (s.readF b))) s

/-- `MINV Fd, Fa`: fails on `F[a] = 0` with the register number (R133). -/
def execMinv (d a : Reg) (s : State) : Host.Outcome State Fault Refusal :=
  command (Instr.minv d a).opcode
    (fun s => raiseIf (s.readF a = 0) ⟨.arithmeticImpossibility, a.val, 0⟩)
    (fun s => s.writeF d (finv s.cfg.P (s.readF a))) s

/-- `MDIV Fd, Fa, Fb`: fails on `F[b] = 0` with the register number of the divisor (R134). -/
def execMdiv (d a b : Reg) (s : State) : Host.Outcome State Fault Refusal :=
  command (Instr.mdiv d a b).opcode
    (fun s => raiseIf (s.readF b = 0) ⟨.arithmeticImpossibility, b.val, 0⟩)
    (fun s => s.writeF d (fdiv s.cfg.P (s.readF a) (s.readF b))) s

end Sys2Proof.Machine
end

