-- ==== Sys2Proof/Machine/Lagrange.lean ====
section
/-! DEFINITION. The Lagrange interpolator: the basis value at 0, the checks of the share table and the meanings of LBASIS and COMBINE (43_lagrange_interpolator.md R201 to R205). -/

namespace Sys2Proof.Machine

/-- `j = 0 to K−1, skipping j = i` (R201). -/
def othersOf (K i : Nat) : List Nat := (List.range K).filter (fun j => j != i)

/-- The running product of `(0 − xⱼ)` (R201). -/
def basisNum (P : Nat) (xs : Nat → Nat) (K i : Nat) : Nat :=
  (othersOf K i).foldl (fun num j => fmul P num (fsub P 0 (xs j))) (1 % P)

/-- The running product of `(xᵢ − xⱼ)` (R201). -/
def basisDen (P : Nat) (xs : Nat → Nat) (K i : Nat) : Nat :=
  (othersOf K i).foldl (fun den j => fmul P den (fsub P (xs i) (xs j))) (1 % P)

/-- `basis(K, i)`, one inverse per share (R201); used where `den ≠ 0`. -/
def basis (P : Nat) (xs : Nat → Nat) (K i : Nat) : Nat :=
  fmul P (basisNum P xs K i) (finv P (basisDen P xs K i))

/-- The count checks (R202). -/
def State.countFailure (s : State) : Option Failure :=
  raiseIf (s.K.toNat < 2) ⟨.insufficientShares, 0, 0⟩ <|>
  raiseIf (s.cfg.NMAX < s.K.toNat) ⟨.countTooLarge, 0, 0⟩

/-- The first scan: the smallest `i < K` whose residue is 0 (R203). -/
def State.reservedScan (s : State) : Option Failure :=
  ((List.range s.K.toNat).find? (fun i => s.xs i == 0)).map fun i => ⟨.reservedIndex, i, 0⟩

/-- The second scan: the pair `(i, j)`, `i < j < K`, of equal integers with the smallest `j` and for it the smallest `i` (R203). -/
def State.duplicateScan (s : State) : Option Failure :=
  (List.range s.K.toNat).findSome? fun j =>
    ((List.range j).find? (fun i => s.SX.read i == s.SX.read j)).map fun i => ⟨.duplicateIndex, i, j⟩

/-- The share-table scans in their order (R203). -/
def State.scanFailure (s : State) : Option Failure := s.reservedScan <|> s.duplicateScan

/-- The tests of `LBASIS` in their order (R204, 60_exceptions.md R248). -/
def State.lbasisFailure (i : Nat) (s : State) : Option Failure :=
  s.countFailure <|>
  raiseIf (s.K.toNat ≤ i) ⟨.indexRange, i, 0⟩ <|>
  s.scanFailure <|>
  raiseIf (basisDen s.cfg.P s.xs s.K.toNat i = 0) ⟨.arithmeticImpossibility, i, 0⟩

/-- `LBASIS Fd, i` (R204). -/
def execLbasis (d : Reg) (i : Nat) (s : State) : Host.Outcome State Fault Refusal :=
  command (Instr.lbasis d i).opcode (State.lbasisFailure i)
    (fun s => s.writeF d (basis s.cfg.P s.xs s.K.toNat i)) s

/-- The smallest `i < K` whose denominator is 0 (R205). -/
def State.denominatorScan (s : State) : Option Failure :=
  ((List.range s.K.toNat).find? (fun i => basisDen s.cfg.P s.xs s.K.toNat i == 0)).map fun i =>
    ⟨.arithmeticImpossibility, i, 0⟩

/-- The tests of `COMBINE` in their order (R205, 60_exceptions.md R248). -/
def State.combineFailure (s : State) : Option Failure :=
  s.countFailure <|> s.scanFailure <|> s.denominatorScan

/-- `acc <- 0`, then `acc <- fadd(acc, fmul(SY[i], basis(K, i)))` for `i = 0` to `K−1` (R205). -/
def combineSum (P : Nat) (xs : Nat → Nat) (sy : Memory Nat) (K : Nat) : Nat :=
  (List.range K).foldl (fun acc i => fadd P acc (fmul P (sy.read i) (basis P xs K i))) 0

/-- `COMBINE Fd` (R205). -/
def execCombine (d : Reg) (s : State) : Host.Outcome State Fault Refusal :=
  command (Instr.combine d).opcode State.combineFailure
    (fun s => s.writeF d (combineSum s.cfg.P s.xs s.SY s.K.toNat)) s

end Sys2Proof.Machine
end

