-- ==== Sys2Proof/Machine/Movement.lean ====
section
/-! DEFINITION. The meanings of LDF, STF, MVTC, MVTY, MVFY, SETX, GETX, NOP, ZERO (41_data_movement.md R155 to R167). -/

namespace Sys2Proof.Machine

/-- `LDF Fd`: the staged integer, reduced (R155). -/
def execLdf (d : Reg) (s : State) : Host.Outcome State Fault Refusal :=
  command (Instr.ldf d).opcode cannotFail (fun s => s.writeF d s.staged) s

/-- `STF Fa`: the 32 bytes of `F[a]`, or `EncodeOverflow` when it needs more (R157). -/
def execStf (a : Reg) (s : State) : Host.Outcome State Fault Refusal :=
  command (Instr.stf a).opcode
    (fun s => raiseIf (2 ^ 256 ≤ s.readF a) ⟨.encodeOverflow, a.val, 0⟩)
    (fun s => { s with OUT := bytesBE (s.readF a) }) s

/-- `MVTC i, Fa` (R160). -/
def execMvtc (i : Nat) (a : Reg) (s : State) : Host.Outcome State Fault Refusal :=
  command (Instr.mvtc i a).opcode (State.indexFailure i)
    (fun s => { s with COEF := s.COEF.write i (s.readF a) }) s

/-- `MVTY i, Fa` (R161). -/
def execMvty (i : Nat) (a : Reg) (s : State) : Host.Outcome State Fault Refusal :=
  command (Instr.mvty i a).opcode (State.indexFailure i)
    (fun s => { s with SY := s.SY.write i (s.readF a) }) s

/-- `MVFY Fd, i` (R162). -/
def execMvfy (d : Reg) (i : Nat) (s : State) : Host.Outcome State Fault Refusal :=
  command (Instr.mvfy d i).opcode (State.indexFailure i) (fun s => s.writeF d (s.SY.read i)) s

/-- `SETX i`: the integer as it stands, not reduced (R163). -/
def execSetx (i : Nat) (s : State) : Host.Outcome State Fault Refusal :=
  command (Instr.setx i).opcode (State.indexFailure i) (fun s => { s with SX := s.SX.write i s.XIN }) s

/-- `GETX i` (R164). -/
def execGetx (i : Nat) (s : State) : Host.Outcome State Fault Refusal :=
  command (Instr.getx i).opcode (State.indexFailure i) (fun s => { s with XOUT := s.SX.read i }) s

/-- `NOP`: its only effect is that `CODE` and `EINFO` become 0 (R166). -/
def execNop (s : State) : Host.Outcome State Fault Refusal :=
  command Instr.nop.opcode cannotFail id s

/-- `ZERO`: the state equals the reset state (R167). -/
def execZero (s : State) : Host.Outcome State Fault Refusal :=
  command Instr.zero.opcode cannotFail State.clear s

end Sys2Proof.Machine
end

