-- ==== Sys2Proof/Machine/Polynomial.lean ====
section
/-! DEFINITION. The polynomial evaluator: Horner's rule over COEF and the meanings of PEVAL and SPLIT (42_polynomial_evaluator.md R181 to R184). -/

namespace Sys2Proof.Machine

/-- `horner(T, x)`: `acc <- 0`, then `acc <- fadd(fmul(acc, x), COEF[i])` for `i = T−1` downto `0` (R181). The fold is from the right, so
the last index of the range is taken first. -/
def horner (P : Nat) (coef : Memory Nat) (t x : Nat) : Nat :=
  (List.range t).foldr (fun i acc => fadd P (fmul P acc x) (coef.read i)) 0

/-- The tests of `PEVAL` in their order (R182, 60_exceptions.md R248). -/
def State.pevalFailure (s : State) : Option Failure :=
  raiseIf (s.T.toNat < 2) ⟨.invalidThreshold, 0, 0⟩ <|>
  raiseIf (s.cfg.NMAX < s.T.toNat) ⟨.countTooLarge, 0, 0⟩ <|>
  raiseIf (s.xinResidue = 0) ⟨.reservedIndex, 0, 0⟩

/-- `PEVAL Fd` (R182). -/
def execPeval (d : Reg) (s : State) : Host.Outcome State Fault Refusal :=
  command (Instr.peval d).opcode State.pevalFailure
    (fun s => s.writeF d (horner s.cfg.P s.COEF s.T.toNat s.xinResidue)) s

/-- The tests of `SPLIT` in their order (R183, 60_exceptions.md R248). -/
def State.splitFailure (s : State) : Option Failure :=
  raiseIf (s.T.toNat < 2) ⟨.invalidThreshold, 0, 0⟩ <|>
  raiseIf (s.N.toNat < s.T.toNat) ⟨.insufficientN, 0, 0⟩ <|>
  raiseIf (s.cfg.NMAX < s.N.toNat) ⟨.countTooLarge, 0, 0⟩

/-- `SPLIT`: for `x = 1` to `N`, `SX[x−1] <- x` and `SY[x−1] <- horner(T, x)`, then every entry of `COEF` to 0 (R183, R184). Entry `k` of
the range is `x − 1`. -/
def execSplit (s : State) : Host.Outcome State Fault Refusal :=
  command Instr.split.opcode State.splitFailure
    (fun s =>
      { s with
        SX := s.SX.writeRange s.N.toNat (fun k => BitVec.ofNat 32 (k + 1))
        SY := s.SY.writeRange s.N.toNat (fun k => horner s.cfg.P s.COEF s.T.toNat (k + 1))
        COEF := [] }) s

end Sys2Proof.Machine
end

