-- ==== Sys2Proof/Machine/Dispatch.lean ====
section
/-! DEFINITION. One arm per command (30_encoding.md R92 step 3). -/

namespace Sys2Proof.Machine

def exec (i : Instr) (s : State) : Host.Outcome State Fault Refusal :=
  match i with
  | .nop => Sys2Proof.Machine.execNop s
  | .madd d a b => Sys2Proof.Machine.execMadd d a b s
  | .msub d a b => Sys2Proof.Machine.execMsub d a b s
  | .mmul d a b => Sys2Proof.Machine.execMmul d a b s
  | .minv d a => Sys2Proof.Machine.execMinv d a s
  | .mdiv d a b => Sys2Proof.Machine.execMdiv d a b s
  | .ldf d => Sys2Proof.Machine.execLdf d s
  | .stf a => Sys2Proof.Machine.execStf a s
  | .mvtc idx a => Sys2Proof.Machine.execMvtc idx a s
  | .mvty idx a => Sys2Proof.Machine.execMvty idx a s
  | .mvfy d idx => Sys2Proof.Machine.execMvfy d idx s
  | .setx idx => Sys2Proof.Machine.execSetx idx s
  | .getx idx => Sys2Proof.Machine.execGetx idx s
  | .peval d => Sys2Proof.Machine.execPeval d s
  | .split => Sys2Proof.Machine.execSplit s
  | .lbasis d idx => Sys2Proof.Machine.execLbasis d idx s
  | .combine d => Sys2Proof.Machine.execCombine d s
  | .zero => Sys2Proof.Machine.execZero s

end Sys2Proof.Machine
end

