-- ==== Sys2Proof/Machine/Port.lean ====
section
/-! DEFINITION. The host port: the register map, the words' values, reads, writes, refused accesses, the CMD write, and the host's moves (20_memory.md R60 to R70; 70_reset_and_hazards.md R270). -/

namespace Sys2Proof.Machine

/-! ### The register map -/

/-- The words of the register space (20_memory.md R64). -/
inductive PortWord where
  | cmd
  | status
  | einfo
  | cap
  | id
  | cfgT
  | cfgN
  | cfgK
  | xin
  | xout
  | ins
  | inW (k : Fin 8)
  | outW (k : Fin 8)
  deriving DecidableEq, Repr

/-- The word's byte offset (20_memory.md R64). -/
def PortWord.offset : PortWord → Nat
  | .cmd => 0x00
  | .status => 0x04
  | .einfo => 0x08
  | .cap => 0x0C
  | .id => 0x10
  | .cfgT => 0x14
  | .cfgN => 0x18
  | .cfgK => 0x1C
  | .xin => 0x20
  | .xout => 0x24
  | .ins => 0x28
  | .inW k => 0x40 + 4 * k.val
  | .outW k => 0x60 + 4 * k.val

/-- The access a word allows (20_memory.md R64): write-only, read-only, both. -/
inductive Access where
  | WO | RO | RW
  deriving DecidableEq, Repr

/-- The column "access" of 20_memory.md R64. -/
def PortWord.access : PortWord → Access
  | .cmd => .WO
  | .status => .RO
  | .einfo => .RO
  | .cap => .RO
  | .id => .RO
  | .cfgT => .RW
  | .cfgN => .RW
  | .cfgK => .RW
  | .xin => .RW
  | .xout => .RO
  | .ins => .RW
  | .inW _ => .RW
  | .outW _ => .RO

/-- The words of the map in the order of their offsets. -/
def portWords : List PortWord :=
  List.append [.cmd, .status, .einfo, .cap, .id, .cfgT, .cfgN, .cfgK, .xin, .xout, .ins]
    (List.append ((List.finRange 8).map PortWord.inW) ((List.finRange 8).map PortWord.outW))

/-- The word an access of `width` bytes at `off` names: only an aligned 32-bit access at a mapped offset names one (20_memory.md R65
items 1 to 3; every offset of the map is a multiple of 4). -/
def portWordAt (off width : Nat) : Option PortWord :=
  if width = 4 then portWords.find? (fun w => w.offset == off) else none

/-! ### The words' values -/

/-- Word `k` of a byte string, bytes `4k..4k+3`, the first in bits 31:24 (10_state.md R33, R34; 20_memory.md R66). -/
def wordOfBytes (B : Bytes32) (k : Fin 8) : Word :=
  B[4 * k.val] ++ B[4 * k.val + 1] ++ B[4 * k.val + 2] ++ B[4 * k.val + 3]

/-- The byte string with word `k` replaced: bytes `4k..4k+3` become `v[31:24], v[23:16], v[15:8], v[7:0]` (20_memory.md R63). -/
def setWordOfBytes (B : Bytes32) (k : Fin 8) (v : Word) : Bytes32 :=
  (((B.set (4 * k.val) (v.extractLsb' 24 8)).set (4 * k.val + 1) (v.extractLsb' 16 8)).set (4 * k.val + 2)
    (v.extractLsb' 8 8)).set (4 * k.val + 3) (v.extractLsb' 0 8)

/-- The value a read of the word returns (20_memory.md R62, 10_state.md R29 to R38); `CMD` holds no value and is not readable (R39). -/
def State.wordValue (s : State) : PortWord → Option Word
  | .cmd => none
  | .status => some s.status
  | .einfo => some s.EINFO
  | .cap => some (capWord s.cfg)
  | .id => some idWord
  | .cfgT => some s.T
  | .cfgN => some s.N
  | .cfgK => some s.K
  | .xin => some s.XIN
  | .xout => some s.XOUT
  | .ins => some (s.INS.setWidth 32)
  | .inW k => some (wordOfBytes s.IN k)
  | .outW k => some (wordOfBytes s.OUT k)

/-- A write to a staging register (20_memory.md R63); a read-only word takes none (R65 item 4), and a write to `CMD` is no write to a
register (R67). -/
def State.setWord (s : State) (w : PortWord) (v : Word) : Option State :=
  match w with
  | .cfgT => some { s with T := v }
  | .cfgN => some { s with N := v }
  | .cfgK => some { s with K := v }
  | .xin => some { s with XIN := v }
  | .ins => some { s with INS := v.extractLsb' 0 1 }
  | .inW k => some { s with IN := setWordOfBytes s.IN k v }
  | .cmd => none
  | .status => none
  | .einfo => none
  | .cap => none
  | .id => none
  | .xout => none
  | .outW _ => none

/-! ### Transactions -/

/-- `exec`'s outcome with a change made to its next state. -/
def mapNext (f : State → State) : Host.Outcome State Fault Refusal → Host.Outcome State Fault Refusal
  | .next s => .next (f s)
  | .fault r => .fault r
  | .refused r => .refused r

/-- A read transaction: the value with `OKAY`, or `ERROR`; no state changes (20_memory.md R62, R65).
DEDUCED that a refused transaction is a next state, safe: log entry 5. -/
def State.readTransaction (s : State) (off width : Nat) : State :=
  match (portWordAt off width).bind s.wordValue with
  | some v => s.respond (.value v)
  | none => s.respond .error

/-- A word written to `CMD`: an illegal word fails with `IllegalCommand`, any other executes its command (30_encoding.md R92, R96).
DEDUCED that an illegal word needs no constructor, safe: log entry 7. -/
def issueCommand (w : Word) (s : State) : Host.Outcome State Fault Refusal :=
  match decode w with
  | .ok i => exec i s
  | .error _ => .next (s.fail (fieldsOf w).opc ⟨.illegalCommand, 0, 0⟩)

/-- A write transaction: a command with response `OKAY` whether it succeeded or failed (20_memory.md R67), a register write with
`OKAY` (R63), or `ERROR` and no change (R65). -/
def State.writeTransaction (s : State) (off width : Nat) (v : Word) : Host.Outcome State Fault Refusal :=
  match portWordAt off width with
  | none => .next (s.respond .error)
  | some .cmd => mapNext (fun t => t.respond .okay) (issueCommand v s)
  | some w =>
    match s.setWord w v with
    | some t => .next (t.respond .okay)
    | none => .next (s.respond .error)

/-- One move of the outside, performed whole (20_memory.md R69, R70; 70_reset_and_hazards.md R270, R272). A reset has no response. -/
def State.perform (s : State) : HostMove → Host.Outcome State Fault Refusal
  | .read off width => .next (s.readTransaction off width)
  | .write off width v => s.writeTransaction off width v
  | .reset => .next s.clear

/-- The block accepts the oldest waiting move (20_memory.md R69); with none waiting it does nothing (70_reset_and_hazards.md R271).
DEDUCED that this is an idle step, safe: log entry 4. -/
def State.accept (s : State) : Host.Outcome State Fault Refusal :=
  match s.port with
  | [] => .next s
  | m :: rest => State.perform { s with port := rest } m

/-- The host's next move is the write of the table's word to `CMD` (20_memory.md R67); it waits in front of the others. -/
def State.placeCommand (s : State) (nbits w : Nat) : State :=
  { s with port := .write PortWord.cmd.offset 4 (BitVec.ofNat 32 (w % 2 ^ nbits)) :: s.port }

end Sys2Proof.Machine
end

