-- ==== Sys2Proof/Machine/Step.lean ====
section
/-! DEFINITION. One step of the machine: one move of the outside, accepted and performed whole (20_memory.md R69, R70). -/

namespace Sys2Proof.Machine

/-- One step. -/
def step (s : State) : Host.Outcome State Fault Refusal := s.accept

/-- The state in which the next step runs the instruction of the opcode table given as a number. The block fetches nothing (10_state.md
R24): a command exists as the value of one write transaction to `CMD`, so this puts that write in front of the host's waiting moves.
DESIGN CHOICE, safe: log entry 6. -/
def State.withFetchWord (s : State) (nbits w : Nat) : State := s.placeCommand nbits w

end Sys2Proof.Machine
end

