-- ==== Sys2Proof/Machine/HostScript.lean ====
section
/-! DEFINITION. The host's side: host scripts, the assembler's syntax and pseudo-instructions, and the source's Split and Combine as host procedures over the port (00_scope.md R14; 30_encoding.md R110, R111; 44_host_sequences.md R221 to R223). Nothing here is behaviour of the block: every effect goes through `step`. -/

namespace Sys2Proof.Machine

/-! ### Assembler syntax -/

/-- `F0` to `F15` (30_encoding.md R110). -/
def regName (r : Reg) : String := "F" ++ toString r.val

/-- A command in the assembler's syntax (30_encoding.md R110). -/
def assembly : Instr → String
  | .nop => "NOP"
  | .madd d a b => "MADD " ++ regName d ++ ", " ++ regName a ++ ", " ++ regName b
  | .msub d a b => "MSUB " ++ regName d ++ ", " ++ regName a ++ ", " ++ regName b
  | .mmul d a b => "MMUL " ++ regName d ++ ", " ++ regName a ++ ", " ++ regName b
  | .minv d a => "MINV " ++ regName d ++ ", " ++ regName a
  | .mdiv d a b => "MDIV " ++ regName d ++ ", " ++ regName a ++ ", " ++ regName b
  | .ldf d => "LDF " ++ regName d
  | .stf a => "STF " ++ regName a
  | .mvtc i a => "MVTC " ++ toString i ++ ", " ++ regName a
  | .mvty i a => "MVTY " ++ toString i ++ ", " ++ regName a
  | .mvfy d i => "MVFY " ++ regName d ++ ", " ++ toString i
  | .setx i => "SETX " ++ toString i
  | .getx i => "GETX " ++ toString i
  | .peval d => "PEVAL " ++ regName d
  | .split => "SPLIT"
  | .lbasis d i => "LBASIS " ++ regName d ++ ", " ++ toString i
  | .combine d => "COMBINE " ++ regName d
  | .zero => "ZERO"

/-! ### Host scripts -/

/-- A host program: a finite sequence of transactions (00_scope.md R14). -/
abbrev Script := List HostMove

/-- `WR <register>, <value>`. -/
def wr (w : PortWord) (v : Word) : HostMove := .write w.offset 4 v

/-- `RD <register>`. -/
def rd (w : PortWord) : HostMove := .read w.offset 4

/-- `WRB IN, h`: eight writes (20_memory.md R66). -/
def wrb (B : Bytes32) : Script := (List.finRange 8).map fun k => wr (.inW k) (wordOfBytes B k)

/-- `RDB OUT`: eight reads (20_memory.md R66). -/
def rdb : Script := (List.finRange 8).map fun k => rd (.outW k)

/-- A line that is a command: `WR CMD, <word>` (30_encoding.md R110). -/
def issue (i : Instr) : HostMove := wr .cmd (encode i)

/-- `LOADI Fd, s, h` (30_encoding.md R111). -/
def loadI (d : Reg) (sign : Word) (B : Bytes32) : Script := [wr .ins sign] ++ wrb B ++ [issue (.ldf d)]

/-- `LOADC i, Fs, s, h` (R111). -/
def loadC (i : Nat) (scratch : Reg) (sign : Word) (B : Bytes32) : Script :=
  loadI scratch sign B ++ [issue (.mvtc i scratch)]

/-- `PUTSHARE i, Fs, x, h` (R111). -/
def putShare (i : Nat) (scratch : Reg) (x : Word) (B : Bytes32) : Script :=
  [wr .xin x, issue (.setx i)] ++ loadI scratch 0 B ++ [issue (.mvty i scratch)]

/-- `STOREF Fa` (R111). -/
def storeF (a : Reg) : Script := [issue (.stf a)] ++ rdb

/-- `GETSHARE i, Fs` (R111). -/
def getShare (i : Nat) (scratch : Reg) : Script :=
  [issue (.getx i), rd .xout, issue (.mvfy scratch i)] ++ storeF scratch

/-! ### Running a script -/

/-- Go on from a next state. -/
def andThen {σ τ : Type} (o : Host.Outcome σ Fault Refusal) (f : σ → Host.Outcome τ Fault Refusal) :
    Host.Outcome τ Fault Refusal :=
  match o with
  | .next s => f s
  | .fault r => .fault r
  | .refused r => .refused r

/-- The script's moves one after the other, each a step that finds the move at the front of the port. -/
def runMoves : Script → State → Host.Outcome State Fault Refusal
  | [], s => .next s
  | m :: ms, s => andThen (step { s with port := m :: s.port }) (runMoves ms)

/-- The value the last read returned, if the last response is one. -/
def State.lastValue (s : State) : Option Word :=
  match s.responses.getLast? with
  | some (.value v) => some v
  | _ => none

/-- `STATUS.CODE` as the last read returned it. -/
def State.lastCode (s : State) : Option Byte := s.lastValue.map fun v => v.extractLsb' 0 8

/-- The values of the last eight reads, as the 32 bytes `RDB OUT` gives. -/
def State.lastBytes (s : State) : List Byte :=
  (s.responses.drop (s.responses.length - 8)).flatMap fun
    | .value v => [v.extractLsb' 24 8, v.extractLsb' 16 8, v.extractLsb' 8 8, v.extractLsb' 0 8]
    | .okay => []
    | .error => []

/-! ### Staging a field element -/

/-- The sign with which `r` is staged (44_host_sequences.md R221, 41_data_movement.md R153). -/
def stageSign (r : Nat) : Word := if r < 2 ^ 256 then 0 else 1

/-- The magnitude with which `r` is staged (R221, R153). Where `P > 2^257` and both `r` and `P - r` are at or above 2^256 the spec says that
`r` cannot be staged directly and gives no sequence for it; the magnitude is then the low 32 bytes of `P - r`, and another element is loaded.
DESIGN CHOICE, unsafe: log entry 19. -/
def stageMagnitude (P r : Nat) : Bytes32 := bytesBE (if r < 2 ^ 256 then r else P - r)

/-! ### The Split sequence -/

/-- Split up to its first host decision: the secret, the coefficients `c₁, …` up to `L−1` with `L = min(T, NMAX)`, the counts, `SPLIT`,
`RD STATUS` (44_host_sequences.md R222). Inputs that R222 does not speak of (coefficients that are not `T−1` field elements) are DESIGN
CHOICE, unsafe: log entry 20; a coefficient that R221 gives no staging for: log entry 19. -/
def splitLoad (cfg : Config) (secret : Bytes32) (T N : Word) (coeffs : List Nat) : Script :=
  loadC 0 0 0 secret
    ++ ((coeffs.take (min T.toNat cfg.NMAX - 1)).zipIdx 1).flatMap
        (fun c => loadC c.2 0 (stageSign c.1) (stageMagnitude cfg.P c.1))
    ++ [wr .cfgT T, wr .cfgN N, issue .split, rd .status]

/-- The host reads share after share; it stops with the code of a failing `STF` (R222). -/
def collectShares : List Nat → State →
    Host.Outcome (State × Except (Option Byte) (List (Option Word × List Byte))) Fault Refusal
  | [], s => .next (s, .ok [])
  | k :: ks, s =>
    andThen (runMoves [issue (.getx k), rd .xout] s) fun s1 =>
    andThen (runMoves [issue (.mvfy 1 k), issue (.stf 1), rd .status] s1) fun s2 =>
    if s2.lastCode ≠ some 0 then .next (s2, .error s2.lastCode)
    else
      andThen (runMoves rdb s2) fun s3 =>
      andThen (collectShares ks s3) fun r =>
      .next (r.1, r.2.map fun shares => (s1.lastValue, s3.lastBytes) :: shares)

/-- The Split sequence (44_host_sequences.md R222): a failure code, or the shares in order; a finished one ends with `ZERO`. After a
failure the host stops; the `ZERO` it "should also issue" then is left to it: log entry 17. -/
def hostSplit (secret : Bytes32) (T N : Word) (coeffs : List Nat) (s : State) :
    Host.Outcome (State × Except (Option Byte) (List (Option Word × List Byte))) Fault Refusal :=
  andThen (runMoves (splitLoad s.cfg secret T N coeffs) s) fun s1 =>
  if s1.lastCode ≠ some 0 then .next (s1, .error s1.lastCode)
  else
    andThen (collectShares (List.range N.toNat) s1) fun r =>
    match r.2 with
    | .error e => .next (r.1, .error e)
    | .ok shares => andThen (runMoves [issue .zero] r.1) fun s2 => .next (s2, .ok shares)

/-! ### The Combine sequence -/

/-- Combine up to its first host decision: the shares up to `L = min(K, NMAX)`, the count, `COMBINE F0`, `RD STATUS`
(44_host_sequences.md R223). A list of 2^32 or more shares has a K that one `WR CFG_K` cannot express and R223 does not speak of; `K mod 2^32`
is written then, so the outcome need not be `CountTooLarge`. DESIGN CHOICE, unsafe: log entry 20. -/
def combineLoad (cfg : Config) (shares : List (Word × Bytes32)) : Script :=
  ((shares.take cfg.NMAX).zipIdx).flatMap (fun c => putShare c.2 1 c.1.1 c.1.2)
    ++ [wr .cfgK (BitVec.ofNat 32 shares.length), issue (.combine 0), rd .status]

/-- The Combine sequence (44_host_sequences.md R223): a failure code, or the 32 bytes of the result; a finished one ends with `ZERO`. -/
def hostCombine (shares : List (Word × Bytes32)) (s : State) :
    Host.Outcome (State × Except (Option Byte) (List Byte)) Fault Refusal :=
  andThen (runMoves (combineLoad s.cfg shares) s) fun s1 =>
  if s1.lastCode ≠ some 0 then .next (s1, .error s1.lastCode)
  else
    andThen (runMoves [issue (.stf 0), rd .status] s1) fun s2 =>
    if s2.lastCode ≠ some 0 then .next (s2, .error s2.lastCode)
    else
      andThen (runMoves rdb s2) fun s3 =>
      andThen (runMoves [issue .zero] s3) fun s4 => .next (s4, .ok s3.lastBytes)

end Sys2Proof.Machine
end

