-- ==== Sys2Proof/Safety.lean ====
section
/-! DEFINITION. What a safe state, a safe step and a reachable state are: the terms the claims use. -/

namespace Sys2Proof.Machine

/-- The invariant of the state between two transactions: every field register, coefficient and share value is a field element (10_state.md
R22); each memory is canonical and lists no entry at or above NMAX (R20); `CODE` is a code the block produces (60_exceptions.md R241);
`EINFO` is 0 when `CODE` is (R246). -/
structure State.Inv (s : State) : Prop where
  field_lt : ∀ r : Reg, s.readF r < s.cfg.P
  coef_lt : ∀ i, s.COEF.read i < s.cfg.P
  sy_lt : ∀ i, s.SY.read i < s.cfg.P
  coef_wf : Memory.wf s.COEF
  sx_wf : Memory.wf s.SX
  sy_wf : Memory.wf s.SY
  coef_within : Memory.within s.COEF s.cfg.NMAX
  sx_within : Memory.within s.SX s.cfg.NMAX
  sy_within : Memory.within s.SY s.cfg.NMAX
  code_produced : s.CODE ∈ producedCodes
  einfo_clear : s.CODE = 0 → s.EINFO = 0

/-- A safe step answers a next state, and that state keeps the invariant. -/
def State.SafeStep (s : State) : Prop := ∃ t, step s = .next t ∧ t.Inv

/-- The states an instance of some configuration reaches from its reset, whatever the outside does at its port: a move may be offered at
any time (20_memory.md R69). -/
inductive State.Reachable : State → Prop where
  | reset (cfg : Config) : State.Reachable (State.resetFor cfg)
  | offer {s : State} (moves : List HostMove) : State.Reachable s → State.Reachable { s with port := s.port ++ moves }
  | step {s t : State} : State.Reachable s → step s = .next t → State.Reachable t

end Sys2Proof.Machine
end

