-- ==== Sys2Proof/Certificates/Slice0/Obligations.lean ====
section
/-! DEFINITION. The statements for the provers, after the spec's numbered rules. The terms they share stand first, under Sys2Proof.Claims. -/

namespace Sys2Proof.Claims

open Sys2Proof.Machine

/-! ### Terms -/

/-- The command completes: `exec` answers a next state in which field register `d` holds `v`, `CODE` and `EINFO` are 0 and EVERYTHING
else is as before: the other field registers, the memories, the staging registers, `OUT`, `XOUT`, the configuration, the port. -/
def WritesField (i : Instr) (s : State) (d : Reg) (v : Nat) : Prop :=
  ∃ t, exec i s = .next t ∧ t.readF d = v ∧ (∀ r, r ≠ d → t.readF r = s.readF r)
    ∧ t = { s with F := t.F, CODE := 0, EINFO := 0 }

/-- The command fails: `exec` answers a next state in which `CODE` is `code`, `EINFO` holds `opc` in bits 31:24, `b` in 23:12 and `a` in
11:0, and EVERYTHING else is as before (60_exceptions.md R245, R246). -/
def FailsWith (i : Instr) (s : State) (opc code : Byte) (a b : Nat) : Prop :=
  ∃ t, exec i s = .next t ∧ t.CODE = code ∧ t.EINFO.extractLsb' 24 8 = opc
    ∧ t.EINFO.extractLsb' 12 12 = BitVec.ofNat 12 b ∧ t.EINFO.extractLsb' 0 12 = BitVec.ofNat 12 a
    ∧ t = { s with CODE := t.CODE, EINFO := t.EINFO }

/-- The word with `opc` in bits 31:24, `d` in 23:20, `a` in 19:16, `b` in 15:12 and `idx` in 11:0 (30_encoding.md R91) decodes to the
command. -/
def EncodedAs (i : Instr) (opc : Byte) (d a b : Reg) (idx : Nat) : Prop :=
  decode (BitVec.ofNat 32 (opc.toNat * 2 ^ 24 + d.val * 2 ^ 20 + a.val * 2 ^ 16 + b.val * 2 ^ 12 + idx)) = .ok i

/-- `Σ B[i]·256^(31−i)` (00_scope.md R11). -/
def bytesValue (B : Bytes32) : Nat := ∑ i : Fin 32, (B[i]).toNat * 256 ^ (31 - i.val)

/-- The residue of share `i`'s x-coordinate in the field. -/
def xField (s : State) (i : Nat) : ZMod s.cfg.P := ((s.SX.read i).toNat : ZMod s.cfg.P)

/-- Share `i`'s x-coordinate is a multiple of P (43_lagrange_interpolator.md R203, first scan). -/
def Reserved (s : State) (i : Nat) : Prop := (s.SX.read i).toNat % s.cfg.P = 0

/-- Shares `i` and `j` have the same 32-bit x-coordinate (43_lagrange_interpolator.md R203, second scan). -/
def SameX (s : State) (i j : Nat) : Prop := s.SX.read i = s.SX.read j

/-- Share `i`'s residue is the residue of another of the `K` shares. -/
def Collides (s : State) (i : Nat) : Prop :=
  ∃ j < s.K.toNat, j ≠ i ∧ (s.SX.read j).toNat % s.cfg.P = (s.SX.read i).toNat % s.cfg.P

/-- The share table passes the count checks and both scans (43_lagrange_interpolator.md R202, R203). -/
def TableOK (s : State) : Prop :=
  2 ≤ s.K.toNat ∧ s.K.toNat ≤ s.cfg.NMAX ∧ (∀ i < s.K.toNat, ¬ Reserved s i)
    ∧ ∀ j < s.K.toNat, ∀ i < j, ¬ SameX s i j

/-- With `m` the oldest waiting move and `rest` behind it, the step answers `t`. -/
def Performs (s : State) (m : HostMove) (rest : List HostMove) (t : State) : Prop :=
  step { s with port := m :: rest } = .next t

/-- The codes each command can raise, the column "raised by" of 60_exceptions.md R241 read by command (`IllegalCommand` belongs to no
command). -/
def codesRaisedBy : Instr → List Byte
  | .nop => []
  | .madd _ _ _ => []
  | .msub _ _ _ => []
  | .mmul _ _ _ => []
  | .minv _ _ => [0x05]
  | .mdiv _ _ _ => [0x05]
  | .ldf _ => []
  | .stf _ => [0x09]
  | .mvtc _ _ => [0x0B]
  | .mvty _ _ => [0x0B]
  | .mvfy _ _ => [0x0B]
  | .setx _ => [0x0B]
  | .getx _ => [0x0B]
  | .peval _ => [0x01, 0x0A, 0x08]
  | .split => [0x01, 0x02, 0x0A]
  | .lbasis _ _ => [0x07, 0x0A, 0x0B, 0x08, 0x03, 0x05]
  | .combine _ => [0x07, 0x0A, 0x08, 0x03, 0x05]
  | .zero => []

end Sys2Proof.Claims

open Sys2Proof Sys2Proof.Machine Sys2Proof.Claims

/-! ### Encoding -/

/-- Words written out from the encodings of 30_encoding.md R95 and the examples of R110, and illegal words of R96. -/
def Obligations.DecodeOfSpecWords : Prop :=
  decode 0x00000000 = .ok .nop ∧ decode 0x01312000 = .ok (.madd 3 1 2) ∧ decode 0x04430000 = .ok (.minv 4 3)
    ∧ decode 0x10100000 = .ok (.ldf 1) ∧ decode 0x11030000 = .ok (.stf 3) ∧ decode 0x14100004 = .ok (.mvfy 1 4)
    ∧ decode 0x12000002 = .ok (.mvtc 2 0) ∧ decode 0x150000FE = .ok (.setx 254) ∧ decode 0x21000000 = .ok .split
    ∧ decode 0x30200001 = .ok (.lbasis 2 1) ∧ decode 0x7F000000 = .ok .zero
    ∧ decode 0x01312001 = .error (.nonzeroField "MADD" .IDX) ∧ decode 0xFFFFFFFF = .error (.unlistedOpcode 0xFF)

/-- Decoding the word of a well-formed command gives the command back, with every operand at every value its field admits. -/
def Obligations.DecodeOfEncode : Prop := ∀ i : Instr, i.wf = true → decode (encode i) = .ok i

/-- A word the decoder reads is the word of the command it reads, and that command is well formed: no bit of the word is dropped. -/
def Obligations.EncodeOfDecode : Prop := ∀ (w : Word) (i : Instr), decode w = .ok i → i.wf = true ∧ encode i = w

/-- 30_encoding.md R95: the 18 rows with their columns `OPC`, `match` and `mask`; a word selects a row exactly when `w AND mask = match`,
and no word selects two rows. -/
def Obligations.MatchAndMaskSelectTheRow : Prop :=
  opcodeTable.map (fun r => (r.mnemonic, r.opc, r.matchWord, r.maskWord)) =
    [("NOP", 0x00, 0x00000000, 0xFFFFFFFF), ("MADD", 0x01, 0x01000000, 0xFF000FFF), ("MSUB", 0x02, 0x02000000, 0xFF000FFF),
     ("MMUL", 0x03, 0x03000000, 0xFF000FFF), ("MINV", 0x04, 0x04000000, 0xFF00FFFF), ("MDIV", 0x05, 0x05000000, 0xFF000FFF),
     ("LDF", 0x10, 0x10000000, 0xFF0FFFFF), ("STF", 0x11, 0x11000000, 0xFFF0FFFF), ("MVTC", 0x12, 0x12000000, 0xFFF0F000),
     ("MVTY", 0x13, 0x13000000, 0xFFF0F000), ("MVFY", 0x14, 0x14000000, 0xFF0FF000), ("SETX", 0x15, 0x15000000, 0xFFFFF000),
     ("GETX", 0x16, 0x16000000, 0xFFFFF000), ("PEVAL", 0x20, 0x20000000, 0xFF0FFFFF), ("SPLIT", 0x21, 0x21000000, 0xFFFFFFFF),
     ("LBASIS", 0x30, 0x30000000, 0xFF0FF000), ("COMBINE", 0x31, 0x31000000, 0xFF0FFFFF), ("ZERO", 0x7F, 0x7F000000, 0xFFFFFFFF)]
  ∧ (∀ (w : Word) (r : Row), r ∈ opcodeTable →
      (w &&& r.maskWord = r.matchWord ↔ decode w = .ok (r.make (fieldsOf w))))
  ∧ ∀ (w : Word) (r q : Row), r ∈ opcodeTable → q ∈ opcodeTable → w &&& r.maskWord = r.matchWord →
      w &&& q.maskWord = q.matchWord → r = q

/-- 30_encoding.md R96: a word that matches no row is illegal; written to `CMD`, it fails with `IllegalCommand` (0x0C), `EINFO` its top byte
and zeros (60_exceptions.md R246), and changes nothing else; the response is `OKAY` (20_memory.md R67). -/
def Obligations.IllegalWordsFail : Prop :=
  ∀ (s : State) (w : Word) (rest : List HostMove), (∀ r ∈ opcodeTable, w &&& r.maskWord ≠ r.matchWord) →
    (∃ e, decode w = .error e)
    ∧ Performs s (.write 0x00 4 w) rest
        { s with port := rest, CODE := 0x0C, EINFO := w &&& 0xFF000000, responses := s.responses ++ [.okay] }

/-! ### Steps -/

/-- A step whose move writes to `CMD` a word that decodes is `exec` of the command on the state from whose port the move is taken, with
the response `OKAY` added (20_memory.md R67). -/
def Obligations.StepRunsTheDecodedCommand : Prop :=
  ∀ (s : State) (w : Word) (i : Instr) (rest : List HostMove), s.port = .write 0x00 4 w :: rest → decode w = .ok i →
    step s = match exec i { s with port := rest } with
      | .next t => .next { t with responses := t.responses ++ [.okay] }
      | .fault r => .fault r
      | .refused r => .refused r

/-- `withFetchWord` places a word of the opcode table so that the very next step runs it. The model's choice: log entry 6. -/
def Obligations.PlacedWordRunsNext : Prop :=
  ∀ (s t : State) (w : Nat) (i : Instr), decodeTableWord 32 w = some i → exec i s = .next t →
    step (s.withFetchWord 32 w) = .next { t with responses := t.responses ++ [.okay] }

/-- Every command, whatever the state, answers a next state: there is no state in which a command stops the block. -/
def Obligations.EveryStepAnswers : Prop :=
  (∀ s : State, ∃ t, step s = .next t) ∧ ∀ (i : Instr) (s : State), ∃ t, exec i s = .next t

/-- 70_reset_and_hazards.md R271: the block does nothing on its own. -/
def Obligations.NothingHappensUnasked : Prop := ∀ s : State, s.port = [] → step s = .next s

/-- 20_memory.md R61, R69: a step takes the oldest waiting move and no other, and answers a transaction with exactly one response, a
value or `ERROR` to a read, `OKAY` or `ERROR` to a write. The model's choices, which rest on no rule: that the responses are recorded in a
field of State (DESIGN CHOICE, log entry 3), and the whole arm of a reset, which keeps the waiting moves and has no response (DEDUCED, log
entry 12). -/
def Obligations.EachTransactionHasOneResponse : Prop :=
  ∀ (s t : State) (m : HostMove) (rest : List HostMove), s.port = m :: rest → step s = .next t →
    t.port = rest ∧
      match m with
      | .read _ _ => ∃ r, t.responses = s.responses ++ [r] ∧ r ≠ .okay
      | .write _ _ _ => ∃ r, t.responses = s.responses ++ [r] ∧ (r = .okay ∨ r = .error)
      | .reset => t.responses = s.responses

/-- 70_reset_and_hazards.md R273: no step changes P or NMAX. -/
def Obligations.ConfigurationIsConstant : Prop := ∀ s t : State, step s = .next t → t.cfg = s.cfg

/-! ### Invariants -/

/-- Every step keeps the invariant: field elements below P, canonical memories within NMAX, a code the block produces, `EINFO` clear on
success. -/
def Obligations.StepKeepsTheInvariant : Prop := ∀ s t : State, s.Inv → step s = .next t → t.Inv

/-- The invariant holds at reset, in every configuration. -/
def Obligations.ResetMeetsTheInvariant : Prop := State.reset.Inv ∧ ∀ cfg : Config, (State.resetFor cfg).Inv

/-- Every state an instance reaches from its reset, whatever is offered at its port, meets the invariant and has a safe next step. -/
def Obligations.ReachableStatesAreSafe : Prop := ∀ s : State, s.Reachable → s.Inv ∧ s.SafeStep

/-! ### Transactions -/

/-- 20_memory.md R62 with the map of R64 and the words of 10_state.md R29 to R38: a read of a readable word returns its value with
`OKAY` and changes no state. -/
def Obligations.ReadsReturnTheWord : Prop :=
  ∀ (s : State) (rest : List HostMove) (off : Nat) (v : Word),
    (off, v) ∈
      [(0x04, BitVec.ofNat 32 (s.CODE.toNat + if s.CODE = 0 then 0 else 2 ^ 8)),
       (0x08, s.EINFO),
       (0x0C, BitVec.ofNat 32 (s.cfg.NMAX + 2 ^ 12 * s.cfg.P.size + if 2 ^ 256 < s.cfg.P then 2 ^ 22 else 0)),
       (0x10, 0x53535331#32), (0x14, s.T), (0x18, s.N), (0x1C, s.K), (0x20, s.XIN), (0x24, s.XOUT),
       (0x28, BitVec.ofNat 32 s.INS.toNat)]
      ++ (List.finRange 8).map (fun k => (0x40 + 4 * k.val, BitVec.ofNat 32
          ((s.IN[4 * k.val]).toNat * 2 ^ 24 + (s.IN[4 * k.val + 1]).toNat * 2 ^ 16 + (s.IN[4 * k.val + 2]).toNat * 2 ^ 8
            + (s.IN[4 * k.val + 3]).toNat)))
      ++ (List.finRange 8).map (fun k => (0x60 + 4 * k.val, BitVec.ofNat 32
          ((s.OUT[4 * k.val]).toNat * 2 ^ 24 + (s.OUT[4 * k.val + 1]).toNat * 2 ^ 16 + (s.OUT[4 * k.val + 2]).toNat * 2 ^ 8
            + (s.OUT[4 * k.val + 3]).toNat))) →
    Performs s (.read off 4) rest { s with port := rest, responses := s.responses ++ [.value v] }

/-- 20_memory.md R63, R66: a write to a writable word other than `CMD` replaces that register (for `INS` by `v[0]`; for `IN_Wk` bytes
`4k..4k+3` of `IN` become `v[31:24], v[23:16], v[15:8], v[7:0]`), with response `OKAY`, and changes nothing else, not even `CODE` or
`EINFO`. -/
def Obligations.WritesReplaceTheRegister : Prop :=
  ∀ (s : State) (rest : List HostMove) (v : Word),
    (∀ (off : Nat) (t : State),
      (off, t) ∈
        [(0x14, { s with T := v }), (0x18, { s with N := v }), (0x1C, { s with K := v }), (0x20, { s with XIN := v }),
         (0x28, { s with INS := BitVec.ofBool (v.getLsbD 0) })] →
      Performs s (.write off 4 v) rest { t with port := rest, responses := s.responses ++ [.okay] })
    ∧ ∀ k : Fin 8, ∃ t, Performs s (.write (0x40 + 4 * k.val) 4 v) rest t
        ∧ t = { s with IN := t.IN, port := rest, responses := s.responses ++ [.okay] }
        ∧ t.IN[4 * k.val] = v.extractLsb' 24 8 ∧ t.IN[4 * k.val + 1] = v.extractLsb' 16 8
        ∧ t.IN[4 * k.val + 2] = v.extractLsb' 8 8 ∧ t.IN[4 * k.val + 3] = v.extractLsb' 0 8
        ∧ ∀ (j : Nat) (hj : j < 32), j / 4 ≠ k.val → t.IN[j] = s.IN[j]

/-- 20_memory.md R65: a misaligned access, an access of another width, an access to an unmapped offset, a write to a read-only word and a
read of `CMD` are answered `ERROR`, and no state changes. -/
def Obligations.RefusedTransactionsChangeNothing : Prop :=
  ∀ (s : State) (rest : List HostMove) (off width : Nat) (v : Word),
    (off % 4 ≠ 0 ∨ width ≠ 4 ∨ (0x2C ≤ off ∧ off < 0x40) ∨ 0x80 ≤ off →
      Performs s (.read off width) rest { s with port := rest, responses := s.responses ++ [.error] }
        ∧ Performs s (.write off width v) rest { s with port := rest, responses := s.responses ++ [.error] })
    ∧ (off ∈ [0x04, 0x08, 0x0C, 0x10, 0x24, 0x60, 0x64, 0x68, 0x6C, 0x70, 0x74, 0x78, 0x7C] →
      Performs s (.write off 4 v) rest { s with port := rest, responses := s.responses ++ [.error] })
    ∧ Performs s (.read 0x00 4) rest { s with port := rest, responses := s.responses ++ [.error] }

/-! ### Reset -/

/-- 10_state.md R41, 70_reset_and_hazards.md R270: a reset leaves every piece of state 0, whatever it held, in one transition. -/
def Obligations.ResetClearsEverything : Prop :=
  ∀ (s : State) (rest : List HostMove), ∃ t, Performs s .reset rest t ∧ t.cfg = s.cfg ∧ (∀ r, t.readF r = 0)
    ∧ (∀ i, t.COEF.read i = 0) ∧ (∀ i, t.SX.read i = 0) ∧ (∀ i, t.SY.read i = 0)
    ∧ t.T = 0 ∧ t.N = 0 ∧ t.K = 0 ∧ t.XIN = 0 ∧ t.XOUT = 0 ∧ t.INS = 0
    ∧ (∀ (i : Nat) (hi : i < 32), t.IN[i] = 0 ∧ t.OUT[i] = 0) ∧ t.CODE = 0 ∧ t.EINFO = 0

/-- After 41_data_movement.md R167 and 10_state.md R41: `ZERO` (word 0x7F000000) completes and leaves the reset state of the configuration,
and a reset leaves the same. The model's choices, which rest on no rule: the fields `port` and `responses` (DESIGN CHOICE, log entry 3), and
that `ZERO` and a reset leave both as they are and a reset has no response (DEDUCED, log entry 12). -/
def Obligations.ZeroEqualsReset : Prop :=
  decode 0x7F000000 = .ok .zero
  ∧ ∀ s : State, ∃ t, exec .zero s = .next t ∧ t.CODE = 0 ∧ t.EINFO = 0
      ∧ t = { State.resetFor s.cfg with port := s.port, responses := s.responses }
      ∧ ∀ rest, Performs s .reset rest { t with port := rest }

/-! ### Failures -/

/-- 60_exceptions.md R245: a word written to `CMD`, whichever of the 2^32 it is, that leaves a nonzero code has changed `CODE` and `EINFO`
and nothing else; the response is `OKAY`. -/
def Obligations.FailuresArePrecise : Prop :=
  ∀ (s t : State) (w : Word) (rest : List HostMove), Performs s (.write 0x00 4 w) rest t → t.CODE ≠ 0 →
    t = { s with CODE := t.CODE, EINFO := t.EINFO, port := rest, responses := s.responses ++ [.okay] }

/-- 60_exceptions.md R247, with the `OPC` field of R246: every word written to `CMD` writes `CODE` and `EINFO`, whatever they held before (no
trace of an earlier failure is left): both are 0 when it succeeds, and `EINFO.OPC` is the word's top byte when it fails; a read, and a write
that is not to `CMD`, leave both alone. A reset is no transaction and is not spoken of: it zeroes both (`ResetClearsEverything`). -/
def Obligations.CodeIsNotSticky : Prop :=
  ∀ (s : State) (rest : List HostMove),
    (∀ w : Word, ∃ t, Performs s (.write 0x00 4 w) rest t
      ∧ (∀ (c : Byte) (e : Word), Performs { s with CODE := c, EINFO := e } (.write 0x00 4 w) rest t)
      ∧ (t.CODE = 0 → t.EINFO = 0) ∧ (t.CODE ≠ 0 → t.EINFO.extractLsb' 24 8 = w.extractLsb' 24 8))
    ∧ (∀ (off width : Nat) (t : State), Performs s (.read off width) rest t → t.CODE = s.CODE ∧ t.EINFO = s.EINFO)
    ∧ ∀ (off width : Nat) (v : Word) (t : State), (off, width) ≠ (0x00, 4) → Performs s (.write off width v) rest t →
        t.CODE = s.CODE ∧ t.EINFO = s.EINFO

/-- 60_exceptions.md R241: a command leaves 0 or one of the codes the table lists for it. -/
def Obligations.CommandsRaiseOnlyTheirCodes : Prop :=
  ∀ (i : Instr) (s t : State), exec i s = .next t → t.CODE = 0 ∨ t.CODE ∈ codesRaisedBy i

/-- The column "written by" of 10_state.md R20, for commands: each piece of state is changed only by the commands listed for it. -/
def Obligations.StateIsWrittenOnlyByItsCommands : Prop :=
  ∀ (i : Instr) (s t : State), exec i s = .next t →
    ((∃ r, t.readF r ≠ s.readF r) → i = .zero ∨ (∃ d a b, i = .madd d a b ∨ i = .msub d a b ∨ i = .mmul d a b ∨ i = .mdiv d a b)
      ∨ (∃ d a, i = .minv d a) ∨ (∃ d, i = .ldf d ∨ i = .peval d ∨ i = .combine d) ∨ ∃ d j, i = .mvfy d j ∨ i = .lbasis d j)
    ∧ (t.COEF ≠ s.COEF → i = .zero ∨ i = .split ∨ ∃ j a, i = .mvtc j a)
    ∧ (t.SX ≠ s.SX → i = .zero ∨ i = .split ∨ ∃ j, i = .setx j)
    ∧ (t.SY ≠ s.SY → i = .zero ∨ i = .split ∨ ∃ j a, i = .mvty j a)
    ∧ (t.OUT ≠ s.OUT → i = .zero ∨ ∃ a, i = .stf a)
    ∧ (t.XOUT ≠ s.XOUT → i = .zero ∨ ∃ j, i = .getx j)
    ∧ (t.T ≠ s.T ∨ t.N ≠ s.N ∨ t.K ≠ s.K ∨ t.XIN ≠ s.XIN ∨ t.INS ≠ s.INS ∨ t.IN ≠ s.IN → i = .zero)

/-- 10_state.md R26, R40: `COEF` is observable only through `PEVAL` and `SPLIT`. A move other than one that issues one of the two answers
alike whatever `COEF` holds: two states that differ only in `COEF` go to states that differ at most in `COEF`. -/
def Obligations.CoefIsHidden : Prop :=
  ∀ (s : State) (m : HostMove) (rest : List HostMove) (c : Memory Nat),
    (∀ w i, m = .write 0x00 4 w → decode w = .ok i → i ≠ .split ∧ ∀ d, i ≠ .peval d) →
    ∃ t c', Performs s m rest t ∧ Performs { s with COEF := c } m rest { t with COEF := c' }

/-! ### Field arithmetic -/

/-- 40_field_arithmetic.md R130, R121: `MADD` is opcode 0x01 with `Fd`, `Fa`, `Fb`; it completes in every state with the sum modulo P; for
field elements that is the sum, less P when it reaches P. -/
def Obligations.MaddWritesTheSum : Prop :=
  ∀ (d a b : Reg) (s : State),
    EncodedAs (.madd d a b) 0x01 d a b 0
    ∧ WritesField (.madd d a b) s d ((s.readF a + s.readF b) % s.cfg.P)
    ∧ (s.Inv → (s.readF a + s.readF b) % s.cfg.P =
        if s.cfg.P ≤ s.readF a + s.readF b then s.readF a + s.readF b - s.cfg.P else s.readF a + s.readF b)

/-- 40_field_arithmetic.md R131, R122: `MSUB` is opcode 0x02 with `Fd`, `Fa`, `Fb`; it completes in every state with the exact difference's
floor residue modulo P; for field elements that is the difference, plus P when it is negative. -/
def Obligations.MsubWritesTheDifference : Prop :=
  ∀ (d a b : Reg) (s : State),
    EncodedAs (.msub d a b) 0x02 d a b 0
    ∧ WritesField (.msub d a b) s d (((s.readF a : Int) - (s.readF b : Int)) % (s.cfg.P : Int)).toNat
    ∧ (s.Inv → (((s.readF a : Int) - (s.readF b : Int)) % (s.cfg.P : Int)).toNat =
        if s.readF b ≤ s.readF a then s.readF a - s.readF b else s.readF a + s.cfg.P - s.readF b)

/-- 40_field_arithmetic.md R132, R123: `MMUL` is opcode 0x03 with `Fd`, `Fa`, `Fb`; it completes in every state with the exact product
reduced modulo P; for field elements it is 0 only when a factor is. -/
def Obligations.MmulWritesTheProduct : Prop :=
  ∀ (d a b : Reg) (s : State),
    EncodedAs (.mmul d a b) 0x03 d a b 0
    ∧ WritesField (.mmul d a b) s d ((s.readF a * s.readF b) % s.cfg.P)
    ∧ (s.Inv → ((s.readF a * s.readF b) % s.cfg.P = 0 ↔ s.readF a = 0 ∨ s.readF b = 0))

/-- 40_field_arithmetic.md R133, R124, R128 law 2: `MINV` is opcode 0x04 with `Fd`, `Fa`; with `F[a] = 0` it fails with
`ArithmeticImpossibility` (0x05) and the register number; else it completes with `F[a]^(P−2) mod P`, which is the one field element whose
product with `F[a]` is 1, and is not 0. -/
def Obligations.MinvWritesTheInverse : Prop :=
  ∀ (d a : Reg) (s : State),
    EncodedAs (.minv d a) 0x04 d a 0 0
    ∧ (s.readF a = 0 → FailsWith (.minv d a) s 0x04 0x05 a.val 0)
    ∧ (s.Inv → s.readF a ≠ 0 →
        ∃ v, WritesField (.minv d a) s d v ∧ v = s.readF a ^ (s.cfg.P - 2) % s.cfg.P ∧ v ≠ 0 ∧ v < s.cfg.P
          ∧ s.readF a * v % s.cfg.P = 1 ∧ ∀ w < s.cfg.P, s.readF a * w % s.cfg.P = 1 → w = v)

/-- 40_field_arithmetic.md R134, R125: `MDIV` is opcode 0x05 with `Fd`, `Fa`, `Fb`; with `F[b] = 0` it fails with
`ArithmeticImpossibility` (0x05) and the divisor's register number, whatever `F[a]` is; else it completes with the product of `F[a]` and the
inverse of `F[b]`, the one field element whose product with `F[b]` is `F[a]`. -/
def Obligations.MdivWritesTheQuotient : Prop :=
  ∀ (d a b : Reg) (s : State),
    EncodedAs (.mdiv d a b) 0x05 d a b 0
    ∧ (s.readF b = 0 → FailsWith (.mdiv d a b) s 0x05 0x05 b.val 0)
    ∧ (s.Inv → s.readF b ≠ 0 →
        ∃ v, WritesField (.mdiv d a b) s d v ∧ v = s.readF a * (s.readF b ^ (s.cfg.P - 2) % s.cfg.P) % s.cfg.P ∧ v < s.cfg.P
          ∧ v * s.readF b % s.cfg.P = s.readF a ∧ ∀ w < s.cfg.P, w * s.readF b % s.cfg.P = s.readF a → w = v)

/-! ### The byte boundary and data movement -/

/-- 41_data_movement.md R155, 40_field_arithmetic.md R126: `LDF` is opcode 0x10 with `Fd`; it completes in every state with the residue of
the staged integer, and `IN` and `INS` keep their values. -/
def Obligations.LdfWritesTheStagedResidue : Prop :=
  ∀ (d : Reg) (s : State),
    EncodedAs (.ldf d) 0x10 d 0 0 0
    ∧ WritesField (.ldf d) s d
        (if s.INS = 0 then bytesValue s.IN % s.cfg.P else (s.cfg.P - bytesValue s.IN % s.cfg.P) % s.cfg.P)

/-- 41_data_movement.md R157, R151: `STF` is opcode 0x11 with `Fa`; at or above 2^256 it fails with `EncodeOverflow` (0x09) and the register
number, which cannot happen with P ≤ 2^256; below, it completes: the 32 bytes of `OUT` are `floor(F[a] / 256^(31−i)) mod 256`, their big-endian
value is `F[a]`, and nothing else changes. -/
def Obligations.StfWritesBigEndianBytes : Prop :=
  ∀ (a : Reg) (s : State),
    EncodedAs (.stf a) 0x11 0 a 0 0
    ∧ (2 ^ 256 ≤ s.readF a → FailsWith (.stf a) s 0x11 0x09 a.val 0)
    ∧ (s.Inv → s.cfg.P ≤ 2 ^ 256 → s.readF a < 2 ^ 256)
    ∧ (s.readF a < 2 ^ 256 →
        ∃ t, exec (.stf a) s = .next t
          ∧ (∀ (i : Nat) (hi : i < 32), (t.OUT[i]).toNat = s.readF a / 256 ^ (31 - i) % 256)
          ∧ bytesValue t.OUT = s.readF a ∧ t = { s with OUT := t.OUT, CODE := 0, EINFO := 0 })

/-- 41_data_movement.md R158 (b), R156: with PBIG and `INS = 0`, `LDF` loads exactly `be(IN)` and the `STF` that follows gives the same
32 bytes back. -/
def Obligations.BytesRoundTrip : Prop :=
  ∀ (d : Reg) (s t : State), 2 ^ 256 < s.cfg.P → s.INS = 0 → exec (.ldf d) s = .next t →
    t.readF d = bytesValue s.IN ∧ ∃ u, exec (.stf d) t = .next u ∧ u.CODE = 0 ∧ u.OUT = s.IN

/-- 41_data_movement.md R158 (a): a field element below 2^256, stored, copied to `IN` with `INS = 0` and loaded, is itself. -/
def Obligations.FieldElementRoundTrip : Prop :=
  ∀ (a d : Reg) (s t : State), s.Inv → s.readF a < 2 ^ 256 → exec (.stf a) s = .next t →
    WritesField (.ldf d) { t with IN := t.OUT, INS := 0 } d (s.readF a)

/-- 41_data_movement.md R160: `MVTC` is opcode 0x12 with `Fa` and the index; at or above NMAX it fails with `IndexRange` (0x0B) and the index;
below, it completes: entry `i` of `COEF` is `F[a]`, every other entry and everything else is as before. -/
def Obligations.MvtcWritesTheEntry : Prop :=
  ∀ (i : Nat) (a : Reg) (s : State),
    (i < 4096 → EncodedAs (.mvtc i a) 0x12 0 a 0 i)
    ∧ (s.cfg.NMAX ≤ i → FailsWith (.mvtc i a) s 0x12 0x0B i 0)
    ∧ (s.Inv → i < s.cfg.NMAX →
        ∃ t, exec (.mvtc i a) s = .next t ∧ t.COEF.read i = s.readF a ∧ (∀ j, j ≠ i → t.COEF.read j = s.COEF.read j)
          ∧ t = { s with COEF := t.COEF, CODE := 0, EINFO := 0 })

/-- 41_data_movement.md R161: `MVTY` is opcode 0x13 with `Fa` and the index; at or above NMAX it fails with `IndexRange` (0x0B) and the index;
below, it completes: entry `i` of `SY` is `F[a]`, every other entry and everything else is as before. -/
def Obligations.MvtyWritesTheEntry : Prop :=
  ∀ (i : Nat) (a : Reg) (s : State),
    (i < 4096 → EncodedAs (.mvty i a) 0x13 0 a 0 i)
    ∧ (s.cfg.NMAX ≤ i → FailsWith (.mvty i a) s 0x13 0x0B i 0)
    ∧ (s.Inv → i < s.cfg.NMAX →
        ∃ t, exec (.mvty i a) s = .next t ∧ t.SY.read i = s.readF a ∧ (∀ j, j ≠ i → t.SY.read j = s.SY.read j)
          ∧ t = { s with SY := t.SY, CODE := 0, EINFO := 0 })

/-- 41_data_movement.md R163: `SETX` is opcode 0x15 with the index; at or above NMAX it fails with `IndexRange` (0x0B) and the index;
below, it completes: entry `i` of `SX` is `XIN` as it stands, not reduced, every other entry and everything else is as before. -/
def Obligations.SetxWritesTheEntry : Prop :=
  ∀ (i : Nat) (s : State),
    (i < 4096 → EncodedAs (.setx i) 0x15 0 0 0 i)
    ∧ (s.cfg.NMAX ≤ i → FailsWith (.setx i) s 0x15 0x0B i 0)
    ∧ (s.Inv → i < s.cfg.NMAX →
        ∃ t, exec (.setx i) s = .next t ∧ t.SX.read i = s.XIN ∧ (∀ j, j ≠ i → t.SX.read j = s.SX.read j)
          ∧ t = { s with SX := t.SX, CODE := 0, EINFO := 0 })

/-- 41_data_movement.md R162: `MVFY` is opcode 0x14 with `Fd` and the index; at or above NMAX it fails with `IndexRange` (0x0B) and the index;
below, it completes with `SY[i]` in `F[d]`. -/
def Obligations.MvfyReadsTheEntry : Prop :=
  ∀ (d : Reg) (i : Nat) (s : State),
    (i < 4096 → EncodedAs (.mvfy d i) 0x14 d 0 0 i)
    ∧ (s.cfg.NMAX ≤ i → FailsWith (.mvfy d i) s 0x14 0x0B i 0)
    ∧ (i < s.cfg.NMAX → WritesField (.mvfy d i) s d (s.SY.read i))

/-- 41_data_movement.md R164: `GETX` is opcode 0x16 with the index; at or above NMAX it fails with `IndexRange` (0x0B) and the index; below,
it completes with `SX[i]` in `XOUT` and changes nothing else. -/
def Obligations.GetxReadsTheEntry : Prop :=
  ∀ (i : Nat) (s : State),
    (i < 4096 → EncodedAs (.getx i) 0x16 0 0 0 i)
    ∧ (s.cfg.NMAX ≤ i → FailsWith (.getx i) s 0x16 0x0B i 0)
    ∧ (i < s.cfg.NMAX → exec (.getx i) s = .next { s with XOUT := s.SX.read i, CODE := 0, EINFO := 0 })

/-- 41_data_movement.md R152: at or above NMAX, each of the five indexed moves fails with `IndexRange` (0x0B) and the index. -/
def Obligations.IndexOutOfRangeFails : Prop :=
  ∀ (i : Nat) (r : Reg) (s : State), s.cfg.NMAX ≤ i →
    FailsWith (.mvtc i r) s 0x12 0x0B i 0 ∧ FailsWith (.mvty i r) s 0x13 0x0B i 0 ∧ FailsWith (.mvfy r i) s 0x14 0x0B i 0
      ∧ FailsWith (.setx i) s 0x15 0x0B i 0 ∧ FailsWith (.getx i) s 0x16 0x0B i 0

/-- 41_data_movement.md R166: `NOP` is the word 0x00000000; it completes and only clears `CODE` and `EINFO`. -/
def Obligations.NopOnlyClearsTheCode : Prop :=
  decode 0x00000000 = .ok .nop ∧ ∀ s : State, exec .nop s = .next { s with CODE := 0, EINFO := 0 }

/-! ### The polynomial evaluator -/

/-- 42_polynomial_evaluator.md R182, R186: `PEVAL` is opcode 0x20 with `Fd`; it fails, in this order, with `InvalidThreshold` (0x01) when
T < 2, `CountTooLarge` (0x0A) when T > NMAX, `ReservedIndex` (0x08) when the residue of `XIN` is 0; else it completes with the polynomial's
value `Σ COEF[i]·x^i mod P`, i < T, at that residue. -/
def Obligations.PevalWritesThePolynomialValue : Prop :=
  ∀ (d : Reg) (s : State),
    EncodedAs (.peval d) 0x20 d 0 0 0
    ∧ (s.T.toNat < 2 → FailsWith (.peval d) s 0x20 0x01 0 0)
    ∧ (2 ≤ s.T.toNat → s.cfg.NMAX < s.T.toNat → FailsWith (.peval d) s 0x20 0x0A 0 0)
    ∧ (2 ≤ s.T.toNat → s.T.toNat ≤ s.cfg.NMAX → s.XIN.toNat % s.cfg.P = 0 → FailsWith (.peval d) s 0x20 0x08 0 0)
    ∧ (2 ≤ s.T.toNat → s.T.toNat ≤ s.cfg.NMAX → s.XIN.toNat % s.cfg.P ≠ 0 →
        WritesField (.peval d) s d
          ((∑ i ∈ Finset.range s.T.toNat, s.COEF.read i * (s.XIN.toNat % s.cfg.P) ^ i) % s.cfg.P))

/-- 42_polynomial_evaluator.md R183, R184, R186: `SPLIT` is the word 0x21000000; it fails, in this order, with `InvalidThreshold` (0x01) when
T < 2, `InsufficientN` (0x02) when N < T, `CountTooLarge` (0x0A) when N > NMAX; else it completes: share `x` is
`(x, Σ COEF[i]·x^i mod P)`, i < T, for `x` = 1 to N, entries at and above N are as before, every entry of `COEF` is 0, and nothing else
changes. -/
def Obligations.SplitWritesTheShares : Prop :=
  decode 0x21000000 = .ok .split
  ∧ ∀ s : State,
      (s.T.toNat < 2 → FailsWith .split s 0x21 0x01 0 0)
      ∧ (2 ≤ s.T.toNat → s.N.toNat < s.T.toNat → FailsWith .split s 0x21 0x02 0 0)
      ∧ (2 ≤ s.T.toNat → s.T.toNat ≤ s.N.toNat → s.cfg.NMAX < s.N.toNat → FailsWith .split s 0x21 0x0A 0 0)
      ∧ (s.Inv → 2 ≤ s.T.toNat → s.T.toNat ≤ s.N.toNat → s.N.toNat ≤ s.cfg.NMAX →
          ∃ t, exec .split s = .next t
            ∧ (∀ x, 1 ≤ x → x ≤ s.N.toNat → (t.SX.read (x - 1)).toNat = x
                ∧ t.SY.read (x - 1) = (∑ i ∈ Finset.range s.T.toNat, s.COEF.read i * x ^ i) % s.cfg.P)
            ∧ (∀ k, s.N.toNat ≤ k → t.SX.read k = s.SX.read k ∧ t.SY.read k = s.SY.read k)
            ∧ (∀ i, t.COEF.read i = 0)
            ∧ t = { s with COEF := t.COEF, SX := t.SX, SY := t.SY, CODE := 0, EINFO := 0 })

/-! ### The Lagrange interpolator -/

/-- 43_lagrange_interpolator.md R204, R201 to R203: `LBASIS` is opcode 0x30 with `Fd` and the index; it fails, in this order, with
`InsufficientShares` (0x07), `CountTooLarge` (0x0A), `IndexRange` (0x0B), `ReservedIndex` (0x08) of the first share whose residue is 0,
`DuplicateIndex` (0x03) of the first equal pair, `ArithmeticImpossibility` (0x05) when share `i` collides with another; else it completes with
the field element `v` for which `v · Π_{j≠i}(xᵢ − xⱼ) = Π_{j≠i}(0 − xⱼ)`. -/
def Obligations.LbasisWritesTheBasisValue : Prop :=
  ∀ (d : Reg) (i : Nat) (s : State),
    (i < 4096 → EncodedAs (.lbasis d i) 0x30 d 0 0 i)
    ∧ (s.K.toNat < 2 → FailsWith (.lbasis d i) s 0x30 0x07 0 0)
    ∧ (2 ≤ s.K.toNat → s.cfg.NMAX < s.K.toNat → FailsWith (.lbasis d i) s 0x30 0x0A 0 0)
    ∧ (2 ≤ s.K.toNat → s.K.toNat ≤ s.cfg.NMAX → s.K.toNat ≤ i → FailsWith (.lbasis d i) s 0x30 0x0B i 0)
    ∧ (∀ q, 2 ≤ s.K.toNat → s.K.toNat ≤ s.cfg.NMAX → i < s.K.toNat → q < s.K.toNat → Reserved s q → (∀ j < q, ¬ Reserved s j) →
        FailsWith (.lbasis d i) s 0x30 0x08 q 0)
    ∧ (∀ p q, 2 ≤ s.K.toNat → s.K.toNat ≤ s.cfg.NMAX → i < s.K.toNat → (∀ j < s.K.toNat, ¬ Reserved s j) → p < q →
        q < s.K.toNat → SameX s p q → (∀ j < q, ∀ k < j, ¬ SameX s k j) → (∀ k < p, ¬ SameX s k q) →
        FailsWith (.lbasis d i) s 0x30 0x03 p q)
    ∧ (TableOK s → i < s.K.toNat → Collides s i → FailsWith (.lbasis d i) s 0x30 0x05 i 0)
    ∧ (TableOK s → i < s.K.toNat → ¬ Collides s i →
        ∃ v, WritesField (.lbasis d i) s d v ∧ v < s.cfg.P
          ∧ (v : ZMod s.cfg.P) * ∏ j ∈ (Finset.range s.K.toNat).erase i, (xField s i - xField s j)
              = ∏ j ∈ (Finset.range s.K.toNat).erase i, (0 - xField s j))

/-- 43_lagrange_interpolator.md R205, R201 to R203: `COMBINE` is opcode 0x31 with `Fd`; it fails, in this order, with
`InsufficientShares` (0x07), `CountTooLarge` (0x0A), `ReservedIndex` (0x08) of the first share whose residue is 0, `DuplicateIndex` (0x03) of
the first equal pair, `ArithmeticImpossibility` (0x05) of the first share that collides with another; else it completes with
`Σ SY[i]·ℓᵢ mod P`, the `ℓᵢ` being the values `LBASIS` gives. -/
def Obligations.CombineWritesTheWeightedSum : Prop :=
  ∀ (d : Reg) (s : State),
    EncodedAs (.combine d) 0x31 d 0 0 0
    ∧ (s.K.toNat < 2 → FailsWith (.combine d) s 0x31 0x07 0 0)
    ∧ (2 ≤ s.K.toNat → s.cfg.NMAX < s.K.toNat → FailsWith (.combine d) s 0x31 0x0A 0 0)
    ∧ (∀ q, 2 ≤ s.K.toNat → s.K.toNat ≤ s.cfg.NMAX → q < s.K.toNat → Reserved s q → (∀ j < q, ¬ Reserved s j) →
        FailsWith (.combine d) s 0x31 0x08 q 0)
    ∧ (∀ p q, 2 ≤ s.K.toNat → s.K.toNat ≤ s.cfg.NMAX → (∀ j < s.K.toNat, ¬ Reserved s j) → p < q → q < s.K.toNat →
        SameX s p q → (∀ j < q, ∀ k < j, ¬ SameX s k j) → (∀ k < p, ¬ SameX s k q) →
        FailsWith (.combine d) s 0x31 0x03 p q)
    ∧ (∀ i, TableOK s → i < s.K.toNat → Collides s i → (∀ j < i, ¬ Collides s j) →
        FailsWith (.combine d) s 0x31 0x05 i 0)
    ∧ (TableOK s → (∀ i < s.K.toNat, ¬ Collides s i) →
        ∃ ℓ : Nat → Nat, (∀ i < s.K.toNat, WritesField (.lbasis d i) s d (ℓ i))
          ∧ WritesField (.combine d) s d ((∑ i ∈ Finset.range s.K.toNat, s.SY.read i * ℓ i) % s.cfg.P))

/-- 43_lagrange_interpolator.md R203: with P ≥ 2^32 no zero denominator gets past the scans. -/
def Obligations.NoZeroDenominatorForLargeP : Prop :=
  ∀ (d : Reg) (i : Nat) (s t : State), 2 ^ 32 ≤ s.cfg.P →
    (exec (.combine d) s = .next t → t.CODE ≠ 0x05) ∧ (exec (.lbasis d i) s = .next t → t.CODE ≠ 0x05)

/-- 43_lagrange_interpolator.md R206: the K basis values `LBASIS` gives sum to 1 modulo P. -/
def Obligations.BasisValuesSumToOne : Prop :=
  ∀ (d : Reg) (s : State), TableOK s → (∀ i < s.K.toNat, ¬ Collides s i) →
    ∃ ℓ : Nat → Nat, (∀ i < s.K.toNat, WritesField (.lbasis d i) s d (ℓ i))
      ∧ (∑ i ∈ Finset.range s.K.toNat, ℓ i) % s.cfg.P = 1

/-- 43_lagrange_interpolator.md R207: when the shares are values of a polynomial of degree below K at nonzero, pairwise distinct points,
`COMBINE` completes with its value at 0. -/
def Obligations.CombineInterpolatesAtZero : Prop :=
  ∀ (d : Reg) (s : State) (f : Polynomial (ZMod s.cfg.P)), 2 ≤ s.K.toNat → s.K.toNat ≤ s.cfg.NMAX →
    (∀ i < s.K.toNat, ¬ Reserved s i) → (∀ i < s.K.toNat, ¬ Collides s i) → f.degree < (s.K.toNat : WithBot Nat) →
    (∀ i < s.K.toNat, ((s.SY.read i : Nat) : ZMod s.cfg.P) = f.eval (xField s i)) →
    WritesField (.combine d) s d (f.eval 0).val

/-- 43_lagrange_interpolator.md R207, 42_polynomial_evaluator.md R183, R187: any K of the shares a `SPLIT` with threshold T ≤ K wrote, in
any order, put in the first K entries of the share table of a state of the same configuration, give by `COMBINE` the `COEF[0]` that
`SPLIT` saw: the secret. -/
def Obligations.SharesRecoverTheSecret : Prop :=
  ∀ (d : Reg) (s t u : State) (pick : Nat → Nat), s.Inv → exec .split s = .next t → t.CODE = 0 →
    u.cfg = s.cfg → s.T.toNat ≤ u.K.toNat → u.K.toNat ≤ s.N.toNat →
    (∀ k < u.K.toNat, pick k < s.N.toNat) → (∀ k < u.K.toNat, ∀ l < u.K.toNat, pick k = pick l → k = l) →
    (∀ k < u.K.toNat, u.SX.read k = t.SX.read (pick k) ∧ u.SY.read k = t.SY.read (pick k)) →
    WritesField (.combine d) u d (s.COEF.read 0)

/-- 43_lagrange_interpolator.md R208: a `COMBINE` that succeeds on K shares succeeds with the same value on the same shares in another
order. -/
def Obligations.ShareOrderIsIrrelevant : Prop :=
  ∀ (d : Reg) (s t u : State) (σ : Equiv.Perm Nat), exec (.combine d) s = .next t → t.CODE = 0 →
    u.cfg = s.cfg → u.K = s.K → (∀ k, k < s.K.toNat ↔ σ k < s.K.toNat) →
    (∀ k < s.K.toNat, u.SX.read k = s.SX.read (σ k) ∧ u.SY.read k = s.SY.read (σ k)) →
    WritesField (.combine d) u d (t.readF d)

/-! ### The host's side -/

/-- 30_encoding.md R111 `LOADI Fd, s, h`: the ten transactions of the pseudo-instruction leave `norm(s, be(h))` in `F[d]`, and no error. -/
def Obligations.LoadImmediateSequence : Prop :=
  ∀ (d : Reg) (sign : Bool) (B : Bytes32) (s : State),
    ∃ t, runMoves (loadI d (if sign then 1 else 0) B) s = .next t ∧ t.IN = B ∧ t.CODE = 0
      ∧ t.readF d = (if sign then (s.cfg.P - bytesValue B % s.cfg.P) % s.cfg.P else bytesValue B % s.cfg.P)
      ∧ (∀ r, r ≠ d → t.readF r = s.readF r)
      ∧ t.responses = s.responses ++ List.replicate 10 .okay
end

