-- ==== Sys2Proof/Laws/State.lean ====
section
/-! SUPPORT. One lemma per field per named update of State, true by rfl, so that no later proof unfolds a record update. -/

namespace Sys2Proof.Machine

variable (s : State)

/-! ### writeF -/

@[simp] theorem State.writeF_cfg (r : Reg) (v : Nat) : (s.writeF r v).cfg = s.cfg := rfl
@[simp] theorem State.writeF_F (r : Reg) (v : Nat) : (s.writeF r v).F = s.F.set r v := rfl
@[simp] theorem State.writeF_COEF (r : Reg) (v : Nat) : (s.writeF r v).COEF = s.COEF := rfl
@[simp] theorem State.writeF_SX (r : Reg) (v : Nat) : (s.writeF r v).SX = s.SX := rfl
@[simp] theorem State.writeF_SY (r : Reg) (v : Nat) : (s.writeF r v).SY = s.SY := rfl
@[simp] theorem State.writeF_T (r : Reg) (v : Nat) : (s.writeF r v).T = s.T := rfl
@[simp] theorem State.writeF_N (r : Reg) (v : Nat) : (s.writeF r v).N = s.N := rfl
@[simp] theorem State.writeF_K (r : Reg) (v : Nat) : (s.writeF r v).K = s.K := rfl
@[simp] theorem State.writeF_XIN (r : Reg) (v : Nat) : (s.writeF r v).XIN = s.XIN := rfl
@[simp] theorem State.writeF_XOUT (r : Reg) (v : Nat) : (s.writeF r v).XOUT = s.XOUT := rfl
@[simp] theorem State.writeF_INS (r : Reg) (v : Nat) : (s.writeF r v).INS = s.INS := rfl
@[simp] theorem State.writeF_IN (r : Reg) (v : Nat) : (s.writeF r v).IN = s.IN := rfl
@[simp] theorem State.writeF_OUT (r : Reg) (v : Nat) : (s.writeF r v).OUT = s.OUT := rfl
@[simp] theorem State.writeF_CODE (r : Reg) (v : Nat) : (s.writeF r v).CODE = s.CODE := rfl
@[simp] theorem State.writeF_EINFO (r : Reg) (v : Nat) : (s.writeF r v).EINFO = s.EINFO := rfl
@[simp] theorem State.writeF_port (r : Reg) (v : Nat) : (s.writeF r v).port = s.port := rfl
@[simp] theorem State.writeF_responses (r : Reg) (v : Nat) : (s.writeF r v).responses = s.responses := rfl

/-! ### succeed -/

@[simp] theorem State.succeed_cfg : (s.succeed).cfg = s.cfg := rfl
@[simp] theorem State.succeed_F : (s.succeed).F = s.F := rfl
@[simp] theorem State.succeed_COEF : (s.succeed).COEF = s.COEF := rfl
@[simp] theorem State.succeed_SX : (s.succeed).SX = s.SX := rfl
@[simp] theorem State.succeed_SY : (s.succeed).SY = s.SY := rfl
@[simp] theorem State.succeed_T : (s.succeed).T = s.T := rfl
@[simp] theorem State.succeed_N : (s.succeed).N = s.N := rfl
@[simp] theorem State.succeed_K : (s.succeed).K = s.K := rfl
@[simp] theorem State.succeed_XIN : (s.succeed).XIN = s.XIN := rfl
@[simp] theorem State.succeed_XOUT : (s.succeed).XOUT = s.XOUT := rfl
@[simp] theorem State.succeed_INS : (s.succeed).INS = s.INS := rfl
@[simp] theorem State.succeed_IN : (s.succeed).IN = s.IN := rfl
@[simp] theorem State.succeed_OUT : (s.succeed).OUT = s.OUT := rfl
@[simp] theorem State.succeed_CODE : (s.succeed).CODE = 0 := rfl
@[simp] theorem State.succeed_EINFO : (s.succeed).EINFO = 0 := rfl
@[simp] theorem State.succeed_port : (s.succeed).port = s.port := rfl
@[simp] theorem State.succeed_responses : (s.succeed).responses = s.responses := rfl

/-! ### fail -/

@[simp] theorem State.fail_cfg (opc : Byte) (f : Failure) : (s.fail opc f).cfg = s.cfg := rfl
@[simp] theorem State.fail_F (opc : Byte) (f : Failure) : (s.fail opc f).F = s.F := rfl
@[simp] theorem State.fail_COEF (opc : Byte) (f : Failure) : (s.fail opc f).COEF = s.COEF := rfl
@[simp] theorem State.fail_SX (opc : Byte) (f : Failure) : (s.fail opc f).SX = s.SX := rfl
@[simp] theorem State.fail_SY (opc : Byte) (f : Failure) : (s.fail opc f).SY = s.SY := rfl
@[simp] theorem State.fail_T (opc : Byte) (f : Failure) : (s.fail opc f).T = s.T := rfl
@[simp] theorem State.fail_N (opc : Byte) (f : Failure) : (s.fail opc f).N = s.N := rfl
@[simp] theorem State.fail_K (opc : Byte) (f : Failure) : (s.fail opc f).K = s.K := rfl
@[simp] theorem State.fail_XIN (opc : Byte) (f : Failure) : (s.fail opc f).XIN = s.XIN := rfl
@[simp] theorem State.fail_XOUT (opc : Byte) (f : Failure) : (s.fail opc f).XOUT = s.XOUT := rfl
@[simp] theorem State.fail_INS (opc : Byte) (f : Failure) : (s.fail opc f).INS = s.INS := rfl
@[simp] theorem State.fail_IN (opc : Byte) (f : Failure) : (s.fail opc f).IN = s.IN := rfl
@[simp] theorem State.fail_OUT (opc : Byte) (f : Failure) : (s.fail opc f).OUT = s.OUT := rfl
@[simp] theorem State.fail_CODE (opc : Byte) (f : Failure) : (s.fail opc f).CODE = f.code.number := rfl
@[simp] theorem State.fail_EINFO (opc : Byte) (f : Failure) : (s.fail opc f).EINFO = einfoWord opc f.a f.b := rfl
@[simp] theorem State.fail_port (opc : Byte) (f : Failure) : (s.fail opc f).port = s.port := rfl
@[simp] theorem State.fail_responses (opc : Byte) (f : Failure) : (s.fail opc f).responses = s.responses := rfl

/-! ### respond -/

@[simp] theorem State.respond_cfg (r : Response) : (s.respond r).cfg = s.cfg := rfl
@[simp] theorem State.respond_F (r : Response) : (s.respond r).F = s.F := rfl
@[simp] theorem State.respond_COEF (r : Response) : (s.respond r).COEF = s.COEF := rfl
@[simp] theorem State.respond_SX (r : Response) : (s.respond r).SX = s.SX := rfl
@[simp] theorem State.respond_SY (r : Response) : (s.respond r).SY = s.SY := rfl
@[simp] theorem State.respond_T (r : Response) : (s.respond r).T = s.T := rfl
@[simp] theorem State.respond_N (r : Response) : (s.respond r).N = s.N := rfl
@[simp] theorem State.respond_K (r : Response) : (s.respond r).K = s.K := rfl
@[simp] theorem State.respond_XIN (r : Response) : (s.respond r).XIN = s.XIN := rfl
@[simp] theorem State.respond_XOUT (r : Response) : (s.respond r).XOUT = s.XOUT := rfl
@[simp] theorem State.respond_INS (r : Response) : (s.respond r).INS = s.INS := rfl
@[simp] theorem State.respond_IN (r : Response) : (s.respond r).IN = s.IN := rfl
@[simp] theorem State.respond_OUT (r : Response) : (s.respond r).OUT = s.OUT := rfl
@[simp] theorem State.respond_CODE (r : Response) : (s.respond r).CODE = s.CODE := rfl
@[simp] theorem State.respond_EINFO (r : Response) : (s.respond r).EINFO = s.EINFO := rfl
@[simp] theorem State.respond_port (r : Response) : (s.respond r).port = s.port := rfl
@[simp] theorem State.respond_responses (r : Response) : (s.respond r).responses = s.responses ++ [r] := rfl

/-! ### clear -/

@[simp] theorem State.clear_cfg : s.clear.cfg = s.cfg := rfl
@[simp] theorem State.clear_F : s.clear.F = Vector.replicate 16 0 := rfl
@[simp] theorem State.clear_COEF : s.clear.COEF = [] := rfl
@[simp] theorem State.clear_SX : s.clear.SX = [] := rfl
@[simp] theorem State.clear_SY : s.clear.SY = [] := rfl
@[simp] theorem State.clear_T : s.clear.T = 0 := rfl
@[simp] theorem State.clear_N : s.clear.N = 0 := rfl
@[simp] theorem State.clear_K : s.clear.K = 0 := rfl
@[simp] theorem State.clear_XIN : s.clear.XIN = 0 := rfl
@[simp] theorem State.clear_XOUT : s.clear.XOUT = 0 := rfl
@[simp] theorem State.clear_INS : s.clear.INS = 0 := rfl
@[simp] theorem State.clear_IN : s.clear.IN = Vector.replicate 32 0 := rfl
@[simp] theorem State.clear_OUT : s.clear.OUT = Vector.replicate 32 0 := rfl
@[simp] theorem State.clear_CODE : s.clear.CODE = 0 := rfl
@[simp] theorem State.clear_EINFO : s.clear.EINFO = 0 := rfl
@[simp] theorem State.clear_port : s.clear.port = s.port := rfl
@[simp] theorem State.clear_responses : s.clear.responses = s.responses := rfl

/-! ### The register file -/

@[simp] theorem State.readF_writeF_same (r : Reg) (v : Nat) : (s.writeF r v).readF r = v := by
  simp [State.readF]

theorem State.readF_writeF (r q : Reg) (v : Nat) : (s.writeF r v).readF q = if q = r then v else s.readF q := by
  by_cases h : q = r
  · subst h; simp
  · have : r.val ≠ q.val := fun hv => h (Fin.ext hv.symm)
    simp [State.readF, h, Vector.getElem_set_ne, this]

@[simp] theorem State.readF_succeed (r : Reg) : s.succeed.readF r = s.readF r := rfl
@[simp] theorem State.readF_fail (opc : Byte) (f : Failure) (r : Reg) : (s.fail opc f).readF r = s.readF r := rfl
@[simp] theorem State.readF_respond (x : Response) (r : Reg) : (s.respond x).readF r = s.readF r := rfl
@[simp] theorem State.readF_clear (r : Reg) : s.clear.readF r = 0 := by simp [State.readF]

end Sys2Proof.Machine
end

