-- ==== Sys2Proof/Laws/Command.lean ====
section
/-! SUPPORT. What a command can do: it fails with its first failing test, or it makes its writes and clears CODE and EINFO; and every command is such a command. -/

namespace Sys2Proof.Machine

/-! ### Tests in order -/

@[simp] theorem raiseIf_pos {c : Prop} [Decidable c] (h : c) (f : Failure) : raiseIf c f = some f := if_pos h

@[simp] theorem raiseIf_neg {c : Prop} [Decidable c] (h : ¬ c) (f : Failure) : raiseIf c f = none := if_neg h

theorem raiseIf_eq_none {c : Prop} [Decidable c] {f : Failure} : raiseIf c f = none ↔ ¬ c := by
  by_cases h : c <;> simp [raiseIf, h]

theorem raiseIf_eq_some {c : Prop} [Decidable c] {f g : Failure} : raiseIf c f = some g ↔ c ∧ f = g := by
  by_cases h : c <;> simp [raiseIf, h]

/-- Two groups of tests pass when both do. -/
theorem tests_eq_none {a b : Option Failure} : (a <|> b) = none ↔ a = none ∧ b = none := by
  cases a <;> simp

/-- Two groups of tests fail with the first's failure, or, when the first passes, with the second's. -/
theorem tests_eq_some {a b : Option Failure} {f : Failure} :
    (a <|> b) = some f ↔ a = some f ∨ (a = none ∧ b = some f) := by
  cases a <;> simp

/-! ### One command -/

/-- Everything a command can do. -/
theorem command_cases {opc : Byte} {failure : State → Option Failure} {effect : State → State} {s t : State}
    (h : command opc failure effect s = .next t) :
    (∃ f, failure s = some f ∧ t = s.fail opc f) ∨ (failure s = none ∧ t = (effect s).succeed) := by
  unfold command at h
  split at h
  · rename_i f hf
    exact .inl ⟨f, hf, by cases h; rfl⟩
  · rename_i hf
    exact .inr ⟨hf, by cases h; rfl⟩

theorem command_of_some {opc : Byte} {failure : State → Option Failure} {effect : State → State} {s : State} {f : Failure}
    (h : failure s = some f) : command opc failure effect s = .next (s.fail opc f) := by
  simp [command, h]

theorem command_of_none {opc : Byte} {failure : State → Option Failure} {effect : State → State} {s : State}
    (h : failure s = none) : command opc failure effect s = .next (effect s).succeed := by
  simp [command, h]

/-! ### Every command -/

/-- The tests of a command (60_exceptions.md R248). -/
def failureOf : Instr → State → Option Failure
  | .nop => cannotFail
  | .madd _ _ _ => cannotFail
  | .msub _ _ _ => cannotFail
  | .mmul _ _ _ => cannotFail
  | .minv _ a => fun s => raiseIf (s.readF a = 0) ⟨.arithmeticImpossibility, a.val, 0⟩
  | .mdiv _ _ b => fun s => raiseIf (s.readF b = 0) ⟨.arithmeticImpossibility, b.val, 0⟩
  | .ldf _ => cannotFail
  | .stf a => fun s => raiseIf (2 ^ 256 ≤ s.readF a) ⟨.encodeOverflow, a.val, 0⟩
  | .mvtc i _ => State.indexFailure i
  | .mvty i _ => State.indexFailure i
  | .mvfy _ i => State.indexFailure i
  | .setx i => State.indexFailure i
  | .getx i => State.indexFailure i
  | .peval _ => State.pevalFailure
  | .split => State.splitFailure
  | .lbasis _ i => State.lbasisFailure i
  | .combine _ => State.combineFailure
  | .zero => cannotFail

/-- The writes of a command that fails no test, `CODE` and `EINFO` apart. -/
def effectOf : Instr → State → State
  | .nop, s => s
  | .madd d a b, s => s.writeF d (fadd s.cfg.P (s.readF a) (s.readF b))
  | .msub d a b, s => s.writeF d (fsub s.cfg.P (s.readF a) (s.readF b))
  | .mmul d a b, s => s.writeF d (fmul s.cfg.P (s.readF a) (s.readF b))
  | .minv d a, s => s.writeF d (finv s.cfg.P (s.readF a))
  | .mdiv d a b, s => s.writeF d (fdiv s.cfg.P (s.readF a) (s.readF b))
  | .ldf d, s => s.writeF d s.staged
  | .stf a, s => { s with OUT := bytesBE (s.readF a) }
  | .mvtc i a, s => { s with COEF := s.COEF.write i (s.readF a) }
  | .mvty i a, s => { s with SY := s.SY.write i (s.readF a) }
  | .mvfy d i, s => s.writeF d (s.SY.read i)
  | .setx i, s => { s with SX := s.SX.write i s.XIN }
  | .getx i, s => { s with XOUT := s.SX.read i }
  | .peval d, s => s.writeF d (horner s.cfg.P s.COEF s.T.toNat s.xinResidue)
  | .split, s =>
    { s with
      SX := s.SX.writeRange s.N.toNat (fun k => BitVec.ofNat 32 (k + 1))
      SY := s.SY.writeRange s.N.toNat (fun k => horner s.cfg.P s.COEF s.T.toNat (k + 1))
      COEF := [] }
  | .lbasis d i, s => s.writeF d (basis s.cfg.P s.xs s.K.toNat i)
  | .combine d, s => s.writeF d (combineSum s.cfg.P s.xs s.SY s.K.toNat)
  | .zero, s => s.clear

/-- Every command is `command` with its own tests and its own writes. -/
theorem exec_eq_command (i : Instr) (s : State) : exec i s = command i.opcode (failureOf i) (effectOf i) s := by
  cases i <;> rfl

/-- Everything `exec` can do. -/
theorem exec_cases {i : Instr} {s t : State} (h : exec i s = .next t) :
    (∃ f, failureOf i s = some f ∧ t = s.fail i.opcode f) ∨ (failureOf i s = none ∧ t = (effectOf i s).succeed) :=
  command_cases (exec_eq_command i s ▸ h)

theorem exec_of_some {i : Instr} {s : State} {f : Failure} (h : failureOf i s = some f) :
    exec i s = .next (s.fail i.opcode f) := by
  rw [exec_eq_command]; exact command_of_some h

theorem exec_of_none {i : Instr} {s : State} (h : failureOf i s = none) :
    exec i s = .next (effectOf i s).succeed := by
  rw [exec_eq_command]; exact command_of_none h

/-- A command touches neither the configuration nor the host's moves and responses. -/
theorem exec_keeps_port {i : Instr} {s t : State} (h : exec i s = .next t) : t.port = s.port ∧ t.responses = s.responses ∧ t.cfg = s.cfg := by
  rcases exec_cases h with ⟨f, hf, rfl⟩ | ⟨hf, rfl⟩
  · simp
  · cases i <;> simp [effectOf]

end Sys2Proof.Machine
end

