-- ==== Sys2Proof/Laws/Decode.lean ====
section
/-! SUPPORT. The command word: packing fields and taking them out again are inverse to each other, and what the decoder answers. -/

namespace Sys2Proof

theorem regField_val (w : Word) (lo : Nat) : (regField w lo).val = w.toNat / 2 ^ lo % 16 := by
  simp [regField, BitVec.extractLsb'_toNat, Nat.shiftRight_eq_div_pow]

theorem fieldsOf_opc_toNat (w : Word) : (fieldsOf w).opc.toNat = w.toNat / 2 ^ 24 % 256 := by
  simp [fieldsOf, BitVec.extractLsb'_toNat, Nat.shiftRight_eq_div_pow]

theorem fieldsOf_idx (w : Word) : (fieldsOf w).idx = w.toNat % 4096 := by
  simp [fieldsOf, BitVec.extractLsb'_toNat]

theorem packFields_toNat (f : Fields) (h : f.idx < 4096) : (packFields f).toNat =
    f.opc.toNat * 2 ^ 24 + f.fd.val * 2 ^ 20 + f.fa.val * 2 ^ 16 + f.fb.val * 2 ^ 12 + f.idx := by
  have h1 := f.opc.isLt
  have h2 := f.fd.isLt
  have h3 := f.fa.isLt
  have h4 := f.fb.isLt
  rw [packFields, BitVec.toNat_ofNat]
  omega

theorem Fields.eq_of_fields {f g : Fields} (h1 : f.opc = g.opc) (h2 : f.fd = g.fd) (h3 : f.fa = g.fa) (h4 : f.fb = g.fb)
    (h5 : f.idx = g.idx) : f = g := by
  cases f; cases g; simp_all

/-- Packing loses nothing when the index fits its field. -/
theorem fieldsOf_packFields (f : Fields) (h : f.idx < 4096) : fieldsOf (packFields f) = f := by
  have h0 := packFields_toNat f h
  have h1 := f.opc.isLt
  have h2 := f.fd.isLt
  have h3 := f.fa.isLt
  have h4 := f.fb.isLt
  have e1 : (fieldsOf (packFields f)).opc = f.opc := by
    apply BitVec.eq_of_toNat_eq
    rw [fieldsOf_opc_toNat, h0]
    omega
  have e2 : (fieldsOf (packFields f)).fd = f.fd := by
    apply Fin.ext
    show (regField _ 20).val = _
    rw [regField_val, h0]
    omega
  have e3 : (fieldsOf (packFields f)).fa = f.fa := by
    apply Fin.ext
    show (regField _ 16).val = _
    rw [regField_val, h0]
    omega
  have e4 : (fieldsOf (packFields f)).fb = f.fb := by
    apply Fin.ext
    show (regField _ 12).val = _
    rw [regField_val, h0]
    omega
  have e5 : (fieldsOf (packFields f)).idx = f.idx := by
    rw [fieldsOf_idx, h0]
    omega
  exact Fields.eq_of_fields e1 e2 e3 e4 e5

/-- A word is the packing of its fields. -/
theorem packFields_fieldsOf (w : Word) : packFields (fieldsOf w) = w := by
  have h : (fieldsOf w).idx < 4096 := by rw [fieldsOf_idx]; omega
  apply BitVec.eq_of_toNat_eq
  rw [packFields_toNat _ h, fieldsOf_opc_toNat, fieldsOf_idx]
  show _ + (regField w 20).val * 2 ^ 20 + (regField w 16).val * 2 ^ 16 + (regField w 12).val * 2 ^ 12 + _ = _
  rw [regField_val, regField_val, regField_val]
  have := w.isLt
  omega

theorem Instr.fields_idx_lt (i : Instr) (h : i.wf = true) : i.fields.idx < 4096 := by
  cases i <;> simp [Instr.wf, idxFits, Instr.fields] at h ⊢ <;> exact h

@[simp] theorem Instr.fields_opc (i : Instr) : i.fields.opc = i.opcode := by cases i <;> rfl

/-- The word of a well-formed command has the command's fields. -/
theorem fieldsOf_encode (i : Instr) (h : i.wf = true) : fieldsOf (encode i) = i.fields :=
  fieldsOf_packFields _ (i.fields_idx_lt h)

/-- What the decoder answers with a command: some row of the map has the word's opcode, the row's must-be-zero fields are zero, and the
command is the row's. -/
theorem decode_ok {w : Word} {i : Instr} (h : decode w = .ok i) :
    ∃ r ∈ opcodeTable, r.opc = (fieldsOf w).opc ∧ (∀ o ∈ r.format.mustBeZero, (fieldsOf w).operand o = 0)
      ∧ i = r.make (fieldsOf w) := by
  unfold decode at h
  split at h
  · cases h
  · rename_i r hr
    split at h
    · cases h
    · rename_i hz
      refine ⟨r, List.mem_of_find?_eq_some hr, by simpa using List.find?_some hr, ?_, (Except.ok.inj h).symm⟩
      simpa using hz

/-! ### Rows -/

/-- In a list whose keys differ, looking up the key of an entry finds the entry. -/
theorem find_of_nodup_keys {α β : Type} [DecidableEq β] (key : α → β) : ∀ (l : List α), (l.map key).Nodup →
    ∀ r ∈ l, l.find? (fun q => key q == key r) = some r
  | [], _, _, hr => by simp at hr
  | x :: l, hl, r, hr => by
    rw [List.map_cons, List.nodup_cons] at hl
    rcases List.mem_cons.mp hr with rfl | hr
    · simp
    · have hne : key x ≠ key r := fun h => hl.1 (h ▸ List.mem_map_of_mem hr)
      rw [List.find?_cons_of_neg (by simpa using hne)]
      exact find_of_nodup_keys key l hl.2 r hr

/-- No two rows of the map have one opcode. -/
theorem opcodes_nodup : (opcodeTable.map Row.opc).Nodup := by decide

/-- Looking up the opcode of a row finds the row. -/
theorem find_row (r : Row) (hr : r ∈ opcodeTable) : opcodeTable.find? (fun q => q.opc == r.opc) = some r :=
  find_of_nodup_keys Row.opc opcodeTable opcodes_nodup r hr

/-- A word whose opcode is a row's and whose must-be-zero fields are zero decodes to the row's command. -/
theorem decode_of_row {w : Word} {r : Row} (hr : r ∈ opcodeTable) (ho : r.opc = (fieldsOf w).opc)
    (hz : ∀ o ∈ r.format.mustBeZero, (fieldsOf w).operand o = 0) : decode w = .ok (r.make (fieldsOf w)) := by
  have h1 := find_row r hr
  rw [ho] at h1
  have h2 : r.format.mustBeZero.find? (fun o => (fieldsOf w).operand o != 0) = none := by simpa using hz
  simp only [decode, h1, h2]

/-- The place of a command's row in the map. -/
def Instr.rowIndex : Instr → Fin 18
  | .nop => 0
  | .madd _ _ _ => 1
  | .msub _ _ _ => 2
  | .mmul _ _ _ => 3
  | .minv _ _ => 4
  | .mdiv _ _ _ => 5
  | .ldf _ => 6
  | .stf _ => 7
  | .mvtc _ _ => 8
  | .mvty _ _ => 9
  | .mvfy _ _ => 10
  | .setx _ => 11
  | .getx _ => 12
  | .peval _ => 13
  | .split => 14
  | .lbasis _ _ => 15
  | .combine _ => 16
  | .zero => 17

/-- The format of a command (30_encoding.md R95). -/
def Instr.format : Instr → Format
  | .nop => .Z
  | .madd _ _ _ => .R3
  | .msub _ _ _ => .R3
  | .mmul _ _ _ => .R3
  | .minv _ _ => .R2
  | .mdiv _ _ _ => .R3
  | .ldf _ => .RD
  | .stf _ => .RA
  | .mvtc _ _ => .RAI
  | .mvty _ _ => .RAI
  | .mvfy _ _ => .RDI
  | .setx _ => .I
  | .getx _ => .I
  | .peval _ => .RD
  | .split => .Z
  | .lbasis _ _ => .RDI
  | .combine _ => .RD
  | .zero => .Z

/-- The row of a command. -/
theorem row_at (i : Instr) : (opcodeTable[i.rowIndex]'(i.rowIndex.isLt)).opc = i.opcode ∧
    (∀ o ∈ (opcodeTable[i.rowIndex]'(i.rowIndex.isLt)).format.mustBeZero, i.fields.operand o = 0) ∧
    (opcodeTable[i.rowIndex]'(i.rowIndex.isLt)).make i.fields = i := by
  refine ⟨by cases i <;> rfl, fun o ho => ?_, by cases i <;> rfl⟩
  have hf : (opcodeTable[i.rowIndex]'(i.rowIndex.isLt)).format = i.format := by cases i <;> rfl
  rw [hf] at ho
  cases i <;> cases o <;> first | rfl | simp [Instr.format, Format.mustBeZero] at ho

/-- Every command has its row in the map. -/
theorem row_of_instr (i : Instr) : ∃ r ∈ opcodeTable, r.opc = i.opcode ∧ (∀ o ∈ r.format.mustBeZero, i.fields.operand o = 0) ∧ r.make i.fields = i :=
  ⟨_, List.getElem_mem i.rowIndex.isLt, row_at i⟩

/-- Rows with one opcode are one row. -/
theorem row_inj : ∀ r ∈ opcodeTable, ∀ q ∈ opcodeTable, r.opc = q.opc → r = q := by
  intro r hr q hq h
  have h1 := find_row r hr
  rw [h, find_row q hq] at h1
  exact (Option.some.inj h1).symm

/-! ### The columns match and mask -/

/-- A mask in two parts: the pattern lies in the first. -/
theorem and_or_eq {n : Nat} {w m k c : BitVec n} (hm : c &&& m = c) (hk : c &&& k = 0) : w &&& (m ||| k) = c ↔ w &&& m = c ∧ w &&& k = 0 := by
  simp only [BitVec.eq_of_getLsbD_eq_iff] at *
  constructor
  · intro h
    constructor <;> intro i hi <;> have a := h i hi <;> have b := hm i hi <;> have c := hk i hi <;> simp at a b c ⊢ <;>
    revert a b c <;> cases w.getLsbD i <;> cases m.getLsbD i <;> cases k.getLsbD i <;> cases BitVec.getLsbD _ i <;> simp
  · rintro ⟨h1, h2⟩ i hi
    have a := h1 i hi; have d := h2 i hi;  have b := hm i hi ; have c := hk i hi ; simp at a b c d ⊢ 
    revert a b c d; cases w.getLsbD i <;> cases m.getLsbD i <;> cases k.getLsbD i <;> cases BitVec.getLsbD _ i <;> simp

/-- The bits of the opcode's part of a mask. -/
theorem opc_mask_bit : ∀ i < 32, (0xFF000000 : Word).getLsbD i = decide (24 ≤ i) := by decide

/-- A field's part of a mask has no bit in the opcode. -/
theorem operand_mask_bit (o : Operand) : ∀ i < 32, 24 ≤ i → o.mask.getLsbD i = false := by cases o <;> decide

/-- The bits of the column `match`. -/
theorem matchWord_bit (opc : Byte) (i : Nat) (hi : i < 32) : (opc.setWidth 32 <<< 24).getLsbD i = (decide (24 ≤ i) && opc.getLsbD (i - 24)) := by
  rw [BitVec.getLsbD_shiftLeft, BitVec.getLsbD_setWidth]
  have h1 : i - 24 < 32 := by omega
  rcases Nat.lt_or_ge i 24 with h | h
  · simp [h, Nat.not_le.mpr h]
  · simp [h, hi, h1]

/-- The opcode part of a row's mask. -/
theorem and_opc {w : Word} {opc : Byte} : w &&& (0xFF000000 : Word) = opc.setWidth 32 <<< 24 ↔ opc = (fieldsOf w).opc := by
  simp only [BitVec.eq_of_getLsbD_eq_iff, fieldsOf, BitVec.getLsbD_and, BitVec.getLsbD_extractLsb']
  constructor
  · intro h i hi
    have h1 := h (24 + i) (by omega)
    rw [matchWord_bit _ _ (by omega), opc_mask_bit _ (by omega)] at h1
    simpa [hi] using h1.symm
  · intro h i hi
    rw [matchWord_bit _ _ hi, opc_mask_bit _ hi]
    rcases Nat.lt_or_ge i 24 with h1 | h1
    · simp [Nat.not_le.mpr h1]
    · have h2 := h (i - 24) (by omega)
      rw [h2, show 24 + (i - 24) = i by omega, decide_eq_true (show i - 24 < 8 by omega), decide_eq_true h1]
      simp

/-- A must-be-zero field's part of a row's mask. -/
theorem and_operand {w : Word} (o : Operand) : w &&& o.mask = 0 ↔ (fieldsOf w).operand o = 0 := by
  have key : ∀ (w : Word) lo len, lo + len ≤ 32 → (w &&& (((BitVec.allOnes len).setWidth 32) <<< lo) = 0 ↔ (w.extractLsb' lo len).toNat = 0) := by
    intro w lo len hl
    rw [show (w.extractLsb' lo len).toNat = 0 ↔ w.extractLsb' lo len = 0 from ⟨fun h => BitVec.eq_of_toNat_eq h, fun h => by rw [h]; rfl⟩]
    simp only [BitVec.eq_of_getLsbD_eq_iff]
    constructor
    · intro h i hi
      have := h (lo + i) (by omega)
      simp at this ⊢
      intro _
      by_contra hc
      have := this (by simpa using hc) (by omega) (by omega)
      omega
    · intro h i hi
      simp
      intro h1 h2 h3
      by_contra h4
      have := h (i - lo) (by omega)
      simp [show lo + (i - lo) = i by omega, h1] at this
      omega
  cases o
  · exact key w 20 4 (by decide)
  · exact key w 16 4 (by decide)
  · exact key w 12 4 (by decide)
  · exact key w 0 12 (by decide)

/-- The columns match and mask of the map say what the decoder tests (30_encoding.md R95). -/
theorem and_mask {w : Word} {r : Row} : w &&& r.maskWord = r.matchWord ↔ r.opc = (fieldsOf w).opc ∧ ∀ o ∈ r.format.mustBeZero, (fieldsOf w).operand o = 0 := by
  have hop : ∀ o : Operand, r.matchWord &&& o.mask = 0 := by
    intro o
    refine BitVec.eq_of_getLsbD_eq fun i hi => ?_
    rw [BitVec.getLsbD_and, Row.matchWord, matchWord_bit _ _ hi]
    rcases Nat.lt_or_ge i 24 with h | h
    · simp [Nat.not_le.mpr h]
    · simp [operand_mask_bit o i hi h]
  have hoc : r.matchWord &&& 0xFF000000 = r.matchWord := by
    refine BitVec.eq_of_getLsbD_eq fun i hi => ?_
    rw [BitVec.getLsbD_and, Row.matchWord, matchWord_bit _ _ hi, opc_mask_bit _ hi]
    cases decide (24 ≤ i) <;> simp
  have key : ∀ (l : List Operand) (m : Word), r.matchWord &&& m = r.matchWord → 
      (w &&& l.foldl (fun m o => m ||| o.mask) m = r.matchWord ↔ w &&& m = r.matchWord ∧ ∀ o ∈ l, (fieldsOf w).operand o = 0) := by
    intro l
    induction l with
    | nil => intro m hm; simp
    | cons o l ih =>
      intro m hm
      rw [List.foldl_cons, ih _ (by rw [BitVec.and_or_distrib_left, hm, hop]; simp), and_or_eq hm (hop o), and_operand]
      simp [and_assoc]
  rw [Row.maskWord, key _ _ hoc]
  rw [Row.matchWord, and_opc]

/-- A word that matches no row is illegal (30_encoding.md R96). -/
theorem decode_illegal {w : Word} (h : ∀ r ∈ opcodeTable, w &&& r.maskWord ≠ r.matchWord) : ∃ e, decode w = .error e := by
  cases hd : decode w with
  | error e => exact ⟨e, rfl⟩
  | ok i =>
    obtain ⟨q, hq, ho, hz, he⟩ := decode_ok hd
    exact absurd (and_mask.2 ⟨ho, hz⟩) (h q hq)

end Sys2Proof
end

