-- ==== Sys2Proof/Laws/Field.lean ====
section
/-! SUPPORT. The field functions: their range, their equal forms, repeated squaring is the power, and the byte boundary. -/

namespace Sys2Proof.Machine

variable {P : Nat}

/-! ### Range (40_field_arithmetic.md R127) -/

theorem fadd_lt (hP : 0 < P) (a b : Nat) : fadd P a b < P := Nat.mod_lt _ hP

theorem fmul_lt (hP : 0 < P) (a b : Nat) : fmul P a b < P := Nat.mod_lt _ hP

theorem fsub_lt (hP : 0 < P) (a b : Nat) : fsub P a b < P := by
  have h1 := Int.emod_nonneg ((a : Int) - b) (show (P : Int) ≠ 0 by omega)
  have h2 := Int.emod_lt_of_pos ((a : Int) - b) (show (0 : Int) < P by omega)
  unfold fsub
  omega

theorem powMod_lt (hP : 0 < P) (a fuel e : Nat) : powMod P a fuel e < P := by
  cases fuel with
  | zero => exact Nat.mod_lt _ hP
  | succ k =>
    simp only [powMod]
    split
    · exact Nat.mod_lt _ hP
    · split
      · exact fmul_lt hP _ _
      · exact fmul_lt hP _ _

theorem finv_lt (hP : 0 < P) (a : Nat) : finv P a < P := powMod_lt hP _ _ _

theorem fdiv_lt (hP : 0 < P) (a b : Nat) : fdiv P a b < P := fmul_lt hP _ _

theorem norm_lt (hP : 0 < P) (s : BitVec 1) (m : Nat) : norm P s m < P := by
  unfold norm
  split
  · exact Nat.mod_lt _ hP
  · have h1 := Int.emod_nonneg (-(m : Int)) (show (P : Int) ≠ 0 by omega)
    have h2 := Int.emod_lt_of_pos (-(m : Int)) (show (0 : Int) < P by omega)
    omega

/-! ### The functions in ZMod P -/

@[simp] theorem cast_fadd (a b : Nat) : ((fadd P a b : Nat) : ZMod P) = a + b := by simp [fadd]

@[simp] theorem cast_fmul (a b : Nat) : ((fmul P a b : Nat) : ZMod P) = a * b := by simp [fmul]

@[simp] theorem cast_fsub (hP : 0 < P) (a b : Nat) : ((fsub P a b : Nat) : ZMod P) = a - b := by
  have h1 := Int.emod_nonneg ((a : Int) - b) (show (P : Int) ≠ 0 by omega)
  have : ((fsub P a b : Nat) : Int) = ((a : Int) - b) % P := by unfold fsub; omega
  have h2 : (((fsub P a b : Nat) : Int) : ZMod P) = ((((a : Int) - b) % P : Int) : ZMod P) := by rw [this]
  simpa using h2

/-- Field elements with the same image in ZMod P are equal. -/
theorem eq_of_cast_eq {a b : Nat} (ha : a < P) (hb : b < P) (h : (a : ZMod P) = b) : a = b := by
  have := (ZMod.natCast_eq_natCast_iff' a b P).1 h
  rwa [Nat.mod_eq_of_lt ha, Nat.mod_eq_of_lt hb] at this

/-! ### Repeated squaring -/

/-- Repeated squaring is the power, for exponents the fuel covers (40_field_arithmetic.md R124, log entry 10). -/
theorem powMod_eq (P a : Nat) : ∀ fuel e, e < 2 ^ fuel → powMod P a fuel e = a ^ e % P := by
  intro fuel
  induction fuel with
  | zero => intro e he; have : e = 0 := by simpa using he
            simp [powMod, this]
  | succ k ih =>
    intro e he
    have hhalf : e / 2 < 2 ^ k := by rw [Nat.pow_succ] at he; omega
    have hsq : fsquare P (powMod P a k (e / 2)) = a ^ (e / 2 + e / 2) % P := by
      rw [ih _ hhalf, fsquare, fmul, ← Nat.mul_mod, ← Nat.pow_add]
    by_cases h0 : e = 0
    · simp [powMod, h0]
    by_cases h1 : e % 2 = 1
    · have he' : e / 2 + e / 2 + 1 = e := by omega
      simp only [powMod, h0, h1, if_true, if_false, hsq]
      rw [fmul, Nat.mod_mul_mod, ← pow_succ, he']
    · have he' : e / 2 + e / 2 = e := by omega
      simp only [powMod, h0, h1, if_false, hsq, he']

/-- `finv(a) = a^(P−2) mod P` (40_field_arithmetic.md R124), in every well-formed configuration. -/
theorem finv_eq (cfg : Config) (a : Nat) : finv cfg.P a = a ^ (cfg.P - 2) % cfg.P :=
  powMod_eq _ _ _ _ (by have := cfg.ok.lt_2_1023; omega)

/-! ### The byte boundary (00_scope.md R11) -/

theorem bytesBE_getElem (v : Nat) (i : Nat) (hi : i < 32) :
    (bytesBE v)[i] = BitVec.ofNat 8 (v / 256 ^ (31 - i)) := by
  simp [bytesBE]

/-- A fold that appends one byte at a time. -/
theorem foldl_bytes_lt (bs : List Byte) (acc : Nat) :
    bs.foldl (fun acc b => acc * 256 + b.toNat) acc < (acc + 1) * 256 ^ bs.length := by
  induction bs generalizing acc with
  | nil => simp
  | cons b bs ih =>
    have hb : b.toNat < 256 := b.isLt
    refine lt_of_lt_of_le (ih _) ?_
    rw [List.length_cons, Nat.pow_succ, Nat.mul_comm (256 ^ _) 256, ← Nat.mul_assoc]
    refine Nat.mul_le_mul_right _ ?_
    show acc * 256 + b.toNat + 1 ≤ (acc + 1) * 256
    omega

/-- The value of 32 bytes is below 2^256. -/
theorem bigEndian_lt (B : Bytes32) : bigEndian B < 2 ^ 256 := by
  have h := foldl_bytes_lt B.toList 0
  simp only [Vector.length_toList] at h
  calc bigEndian B < _ := h
    _ = 2 ^ 256 := by norm_num

/-- Folding the `n` low bytes of `v`, most significant first. -/
theorem foldl_low_bytes (v : Nat) : ∀ n acc,
    ((List.range n).map fun i => BitVec.ofNat 8 (v / 256 ^ (n - 1 - i))).foldl (fun acc (b : Byte) => acc * 256 + b.toNat) acc
      = acc * 256 ^ n + v % 256 ^ n := by
  intro n
  induction n with
  | zero => intro acc; simp [Nat.mod_one]
  | succ n ih =>
    intro acc
    rw [List.range_succ_eq_map, List.map_cons, List.foldl_cons, List.map_map]
    have hrest : ((List.range n).map ((fun i => BitVec.ofNat 8 (v / 256 ^ (n + 1 - 1 - i))) ∘ Nat.succ))
        = (List.range n).map fun i => BitVec.ofNat 8 (v / 256 ^ (n - 1 - i)) := by
      refine List.map_congr_left fun i _ => ?_
      show BitVec.ofNat 8 (v / 256 ^ (n + 1 - 1 - (i + 1))) = _
      rw [show n + 1 - 1 - (i + 1) = n - 1 - i by omega]
    rw [hrest, ih, Nat.mod_pow_succ]
    simp only [Nat.add_sub_cancel, Nat.sub_zero, BitVec.toNat_ofNat]
    ring_nf

/-- `be(bytes_be(v, 32)) = v mod 2^256`. -/
theorem bigEndian_bytesBE (v : Nat) : bigEndian (bytesBE v) = v % 2 ^ 256 := by
  have hlist : (bytesBE v).toList = (List.range 32).map fun i => BitVec.ofNat 8 (v / 256 ^ (32 - 1 - i)) := by
    refine List.ext_getElem (by simp) fun i h1 h2 => ?_
    simp only [Vector.getElem_toList, List.getElem_map, List.getElem_range]
    exact bytesBE_getElem v i (by simpa using h1)
  rw [bigEndian, hlist, foldl_low_bytes, Nat.zero_mul, Nat.zero_add]
  norm_num

/-- Byte lists of one length with one value are equal. -/
theorem foldl_bytes_inj : ∀ (l l' : List Byte) (acc acc' : Nat), l.length = l'.length →
    l.foldl (fun acc b => acc * 256 + b.toNat) acc = l'.foldl (fun acc b => acc * 256 + b.toNat) acc' →
    acc = acc' ∧ l = l'
  | [], [], _, _, _, h => ⟨h, rfl⟩
  | [], _ :: _, _, _, hl, _ => by simp at hl
  | _ :: _, [], _, _, hl, _ => by simp at hl
  | b :: l, b' :: l', acc, acc', hl, h => by
    obtain ⟨hacc, hl'⟩ := foldl_bytes_inj l l' _ _ (by simpa using hl) h
    have hacc : acc * 256 + b.toNat = acc' * 256 + b'.toNat := hacc
    have hb := b.isLt
    have hb' := b'.isLt
    have hbb : b.toNat = b'.toNat := by omega
    exact ⟨by omega, by rw [BitVec.eq_of_toNat_eq hbb, hl']⟩

/-- `bytes_be(be(B), 32) = B`. -/
theorem bytesBE_bigEndian (B : Bytes32) : bytesBE (bigEndian B) = B := by
  have h := bigEndian_bytesBE (bigEndian B)
  rw [Nat.mod_eq_of_lt (bigEndian_lt B)] at h
  have := (foldl_bytes_inj _ _ 0 0 (by simp) h).2
  exact Vector.toList_inj.1 this

/-- `be(B) = Σ B[i]·256^(31−i)` (00_scope.md R11). -/
theorem bigEndian_eq_sum (B : Bytes32) : bigEndian B = ∑ i : Fin 32, (B[i]).toNat * 256 ^ (31 - i.val) := by
  have hl : ∀ (l : List Byte) acc, l.foldl (fun acc b => acc * 256 + b.toNat) acc = acc * 256 ^ l.length + ∑ i : Fin l.length, (l[i]).toNat * 256 ^ (l.length - 1 - i.val) := by
    intro l
    induction l with
    | nil => intro acc; simp
    | cons b l ih =>
      intro acc
      rw [List.foldl_cons, ih]
      show _ = acc * 256 ^ (l.length + 1) + ∑ i : Fin (l.length + 1), ((b :: l)[i.val]).toNat * 256 ^ (l.length + 1 - 1 - i.val)
      rw [Fin.sum_univ_succ]
      have : ∑ i : Fin l.length, ((b :: l)[(Fin.succ i).val]).toNat * 256 ^ (l.length + 1 - 1 - (Fin.succ i).val) = ∑ i : Fin l.length, (l[i]).toNat * 256 ^ (l.length - 1 - i.val) := by
        refine Finset.sum_congr rfl fun i _ => ?_
        have : l.length + 1 - 1 - (Fin.succ i).val = l.length - 1 - i.val := by simp; omega
        rw [this]; rfl
      rw [this]
      simp
      ring
  rw [bigEndian, hl, Nat.zero_mul, Nat.zero_add]
  have h32 : B.toList.length = 32 := by simp
  refine (Fintype.sum_equiv (finCongr h32) _ _ fun i => ?_)
  simp

/-! ### norm and the inverse -/

/-- `norm` on natural numbers (40_field_arithmetic.md R126). -/
theorem norm_eq (hP : 0 < P) (s : BitVec 1) (m : Nat) :
    norm P s m = if s = 0 then m % P else (P - m % P) % P := by
  rw [Machine.norm.eq_def]
  split
  · rfl
  · have hm := Nat.mod_lt m hP
    have h1 : (-(m : Int)) % (P : Int) = ((P - m % P : Nat) : Int) % P := by
      apply Int.emod_eq_emod_iff_emod_sub_eq_zero.2
      rw [Nat.cast_sub hm.le, Int.natCast_mod]
      have := Int.emod_add_mul_ediv (m : Int) P
      rw [show -(m : Int) - (P - m % P) = P * (-(m / P) - 1) by linarith]
      simp
    rw [h1]; omega

/-- An inverse times its element is 1 in ZMod P (40_field_arithmetic.md R124). -/
theorem cast_finv_mul {cfg : Config} {a : Nat} (ha : (a : ZMod cfg.P) ≠ 0) : (finv cfg.P a : ZMod cfg.P) * a = 1 := by
  have hp := cfg.ok.prime
  have := Fact.mk hp
  have h2 := hp.two_le
  rw [finv_eq]
  simp
  rw [← pow_succ, show cfg.P - 2 + 1 = cfg.P - 1 by omega, ZMod.pow_card_sub_one_eq_one ha]

end Sys2Proof.Machine
end

