-- ==== Sys2Proof/Laws/Flags.lean ====
section
/-! SUPPORT. The words EINFO, STATUS and CAP as numbers and by their fields. -/

namespace Sys2Proof.Machine

/-- Two bit strings side by side, as a number. -/
theorem append_toNat {n m : Nat} (x : BitVec n) (y : BitVec m) : (x ++ y).toNat = x.toNat * 2 ^ m + y.toNat := by
  rw [BitVec.toNat_append, ← Nat.shiftLeft_add_eq_or_of_lt y.isLt, Nat.shiftLeft_eq]

theorem einfoWord_toNat (opc : Byte) (a b : Nat) :
    (einfoWord opc a b).toNat = opc.toNat * 2 ^ 24 + b % 4096 * 2 ^ 12 + a % 4096 := by
  have h : (einfoWord opc a b).toNat = ((opc ++ BitVec.ofNat 12 b) ++ BitVec.ofNat 12 a).toNat := rfl
  rw [h, append_toNat, append_toNat, BitVec.toNat_ofNat, BitVec.toNat_ofNat]
  omega

@[simp] theorem einfoWord_opc (opc : Byte) (a b : Nat) : (einfoWord opc a b).extractLsb' 24 8 = opc := by
  apply BitVec.eq_of_toNat_eq
  rw [BitVec.extractLsb'_toNat, einfoWord_toNat, Nat.shiftRight_eq_div_pow]
  have := opc.isLt
  omega

@[simp] theorem einfoWord_b (opc : Byte) (a b : Nat) : (einfoWord opc a b).extractLsb' 12 12 = BitVec.ofNat 12 b := by
  apply BitVec.eq_of_toNat_eq
  rw [BitVec.extractLsb'_toNat, einfoWord_toNat, Nat.shiftRight_eq_div_pow, BitVec.toNat_ofNat]
  have := opc.isLt
  omega

@[simp] theorem einfoWord_a (opc : Byte) (a b : Nat) : (einfoWord opc a b).extractLsb' 0 12 = BitVec.ofNat 12 a := by
  apply BitVec.eq_of_toNat_eq
  rw [BitVec.extractLsb'_toNat, einfoWord_toNat, Nat.shiftRight_eq_div_pow, BitVec.toNat_ofNat]
  have := opc.isLt
  omega

/-- `STATUS` is `CODE`, with bit 8 set when it is nonzero (10_state.md R35). -/
theorem State.status_eq (s : State) : s.status = BitVec.ofNat 32 (s.CODE.toNat + if s.CODE = 0 then 0 else 2 ^ 8) := by
  apply BitVec.eq_of_toNat_eq
  have h : s.status.toNat = ((0#23 ++ s.errf) ++ s.CODE).toNat := rfl
  rw [h, append_toNat, append_toNat, BitVec.toNat_ofNat, State.errf]
  have := s.CODE.isLt
  split <;> simp <;> omega

/-- `W` is the number of bits of P (00_scope.md R7). -/
theorem Config.W_eq (cfg : Config) : cfg.W = cfg.P.size := by
  have := cfg.ok.prime.pos
  refine le_antisymm ?_ ?_
  · exact Nat.lt_size.2 (Nat.log2_self_le this.ne')
  · exact Nat.size_le.2 Nat.lt_log2_self

/-- `CAP` as a number (10_state.md R37). -/
theorem capWord_eq (cfg : Config) : capWord cfg = BitVec.ofNat 32 (cfg.NMAX + 2 ^ 12 * cfg.P.size + if 2 ^ 256 < cfg.P then 2 ^ 22 else 0) := by
  have hw : cfg.P.size < 1024 := by
    have := Nat.size_le.2 cfg.ok.lt_2_1023
    omega
  have hn := cfg.ok.le_4095
  rw [← Config.W_eq] at *
  apply BitVec.eq_of_toNat_eq
  have h : (capWord cfg).toNat = (((0#9 ++ (if cfg.PBIG then 1#1 else 0#1)) ++ BitVec.ofNat 10 cfg.W) ++ BitVec.ofNat 12 cfg.NMAX).toNat := rfl
  rw [h, append_toNat, append_toNat, append_toNat]
  simp only [BitVec.toNat_ofNat, Config.PBIG, decide_eq_true_eq]
  split <;> simp <;> omega

end Sys2Proof.Machine
end

