-- ==== Sys2Proof/Laws/Lagrange.lean ====
section
/-! SUPPORT. The polynomial evaluator and the interpolator: the functions in ZMod P, and when each scan of the share table passes. -/

namespace Sys2Proof.Machine

/-! ### Horner's rule -/

theorem horner_succ (P : Nat) (coef : Memory Nat) (t x : Nat) :
    horner P coef (t + 1) x = (List.range t).foldr (fun i acc => fadd P (fmul P acc x) (coef.read i))
      (fadd P (fmul P 0 x) (coef.read t)) := by
  simp [horner, List.range_succ]

/-- Horner's rule in ZMod P, from any accumulator. -/
theorem cast_horner_from {P : Nat} (coef : Memory Nat) (x : Nat) : ∀ t acc,
    (((List.range t).foldr (fun i acc => fadd P (fmul P acc x) (coef.read i)) acc : Nat) : ZMod P)
      = acc * (x : ZMod P) ^ t + ∑ i ∈ Finset.range t, (coef.read i : ZMod P) * (x : ZMod P) ^ i := by
  intro t
  induction t with
  | zero => intro acc; simp
  | succ t ih =>
    intro acc
    rw [List.range_succ, List.foldr_append, List.foldr_cons, List.foldr_nil, ih, Finset.sum_range_succ]
    simp only [cast_fadd, cast_fmul]
    ring

/-- `horner(T, x)` is the polynomial's value (42_polynomial_evaluator.md R186). -/
theorem cast_horner {P : Nat} (coef : Memory Nat) (t x : Nat) :
    ((horner P coef t x : Nat) : ZMod P) = ∑ i ∈ Finset.range t, (coef.read i : ZMod P) * (x : ZMod P) ^ i := by
  rw [horner, cast_horner_from]; simp

theorem horner_lt {P : Nat} (hP : 0 < P) (coef : Memory Nat) (t x : Nat) : horner P coef t x < P := by
  cases t with
  | zero => simpa [horner] using hP
  | succ t => rw [horner, List.range_succ_eq_map, List.foldr_cons]; exact fadd_lt hP _ _

/-! ### The basis value -/

theorem mem_othersOf {K i j : Nat} : j ∈ othersOf K i ↔ j < K ∧ j ≠ i := by
  simp [othersOf]

theorem othersOf_nodup (K i : Nat) : (othersOf K i).Nodup := List.nodup_range.filter _

theorem othersOf_toFinset (K i : Nat) : (othersOf K i).toFinset = (Finset.range K).erase i := by
  ext j; simp [mem_othersOf, and_comm]

theorem foldl_fmul_cast {P : Nat} (l : List Nat) (f : Nat → Nat) (acc : Nat) :
    ((l.foldl (fun p j => fmul P p (f j)) acc : Nat) : ZMod P) = acc * (l.map fun j => (f j : ZMod P)).prod := by
  induction l generalizing acc with
  | nil => simp
  | cons j l ih => rw [List.foldl_cons, ih, List.map_cons, List.prod_cons, cast_fmul, mul_assoc]

theorem cast_basisNum {P : Nat} (hP : 0 < P) (xs : Nat → Nat) (K i : Nat) :
    ((basisNum P xs K i : Nat) : ZMod P) = ∏ j ∈ (Finset.range K).erase i, (-(xs j : ZMod P)) := by
  rw [basisNum, foldl_fmul_cast, ← othersOf_toFinset, List.prod_toFinset _ (othersOf_nodup K i)]
  simp [cast_fsub hP]

theorem cast_basisDen {P : Nat} (hP : 0 < P) (xs : Nat → Nat) (K i : Nat) :
    ((basisDen P xs K i : Nat) : ZMod P) = ∏ j ∈ (Finset.range K).erase i, ((xs i : ZMod P) - xs j) := by
  rw [basisDen, foldl_fmul_cast, ← othersOf_toFinset, List.prod_toFinset _ (othersOf_nodup K i)]
  simp [cast_fsub hP]

theorem foldl_fmul_lt {P : Nat} (hP : 0 < P) (l : List Nat) (f : Nat → Nat) (acc : Nat) (h : acc < P) :
    l.foldl (fun p j => fmul P p (f j)) acc < P := by
  induction l generalizing acc with
  | nil => exact h
  | cons j l ih => exact ih _ (fmul_lt hP _ _)

theorem basisDen_lt {P : Nat} (hP : 0 < P) (xs : Nat → Nat) (K i : Nat) : basisDen P xs K i < P :=
  foldl_fmul_lt hP _ _ _ (Nat.mod_lt _ hP)

theorem basis_lt {P : Nat} (hP : 0 < P) (xs : Nat → Nat) (K i : Nat) : basis P xs K i < P := fmul_lt hP _ _

theorem combineSum_lt {P : Nat} (hP : 0 < P) (xs : Nat → Nat) (sy : Memory Nat) (K : Nat) : combineSum P xs sy K < P := by
  cases K with
  | zero => simpa [combineSum] using hP
  | succ K => rw [combineSum, List.range_succ, List.foldl_append]; exact fadd_lt hP _ _

theorem cast_combineSum {P : Nat} (xs : Nat → Nat) (sy : Memory Nat) (K : Nat) :
    ((combineSum P xs sy K : Nat) : ZMod P)
      = ∑ i ∈ Finset.range K, (sy.read i : ZMod P) * ((basis P xs K i : Nat) : ZMod P) := by
  have : ∀ n, (((List.range n).foldl (fun acc i => fadd P acc (fmul P (sy.read i) (basis P xs K i))) 0 : Nat) : ZMod P)
      = ∑ i ∈ Finset.range n, (sy.read i : ZMod P) * ((basis P xs K i : Nat) : ZMod P) := by
    intro n
    induction n with
    | zero => simp
    | succ n ih => rw [List.range_succ, List.foldl_append, List.foldl_cons, List.foldl_nil, cast_fadd, ih, cast_fmul,
        Finset.sum_range_succ]
  exact this K

/-! ### The scans -/

/-- What a search below a bound finds: the smallest index with the property. -/
theorem find?_range_eq_some {p : Nat → Bool} {n i : Nat} :
    (List.range n).find? p = some i ↔ i < n ∧ p i = true ∧ ∀ j < i, p j = false := by
  rw [List.find?_range_eq_some]
  simp only [List.mem_range]
  constructor
  · rintro ⟨h1, h2, h3⟩
    exact ⟨h2, h1, fun j hj => by simpa using h3 j hj⟩
  · rintro ⟨h1, h2, h3⟩
    exact ⟨h2, h1, fun j hj => by simpa using h3 j hj⟩

theorem find?_range_eq_none {p : Nat → Bool} {n : Nat} :
    (List.range n).find? p = none ↔ ∀ j < n, p j = false := by
  simp [List.find?_eq_none]

theorem reservedScan_eq_none {s : State} : s.reservedScan = none ↔ ∀ i < s.K.toNat, s.xs i ≠ 0 := by
  simp [State.reservedScan]

theorem duplicateScan_eq_none {s : State} :
    s.duplicateScan = none ↔ ∀ j < s.K.toNat, ∀ i < j, s.SX.read i ≠ s.SX.read j := by
  simp [State.duplicateScan, List.findSome?_eq_none_iff]

theorem denominatorScan_eq_none {s : State} :
    s.denominatorScan = none ↔ ∀ i < s.K.toNat, basisDen s.cfg.P s.xs s.K.toNat i ≠ 0 := by
  simp [State.denominatorScan]

theorem countFailure_eq_none {s : State} : s.countFailure = none ↔ 2 ≤ s.K.toNat ∧ s.K.toNat ≤ s.cfg.NMAX := by
  rw [State.countFailure, tests_eq_none, raiseIf_eq_none, raiseIf_eq_none]
  omega

/-- The first scan reports the smallest share whose residue is 0 (43_lagrange_interpolator.md R203). -/
theorem reservedScan_eq_some {s : State} {f : Failure} : s.reservedScan = some f ↔
    ∃ i < s.K.toNat, s.xs i = 0 ∧ (∀ j < i, s.xs j ≠ 0) ∧ f = ⟨.reservedIndex, i, 0⟩ := by
  rw [State.reservedScan, Option.map_eq_some_iff]
  constructor
  · rintro ⟨i, hi, rfl⟩
    obtain ⟨h1, h2, h3⟩ := find?_range_eq_some.1 hi
    exact ⟨i, h1, by simpa using h2, fun j hj => by simpa using h3 j hj, rfl⟩
  · rintro ⟨i, h1, h2, h3, rfl⟩
    exact ⟨i, find?_range_eq_some.2 ⟨h1, by simpa using h2, fun j hj => by simpa using h3 j hj⟩, rfl⟩

/-- The denominator scan reports the smallest share whose denominator is 0 (43_lagrange_interpolator.md R205). -/
theorem denominatorScan_eq_some {s : State} {f : Failure} : s.denominatorScan = some f ↔
    ∃ i < s.K.toNat, basisDen s.cfg.P s.xs s.K.toNat i = 0 ∧ (∀ j < i, basisDen s.cfg.P s.xs s.K.toNat j ≠ 0)
      ∧ f = ⟨.arithmeticImpossibility, i, 0⟩ := by
  rw [State.denominatorScan, Option.map_eq_some_iff]
  constructor
  · rintro ⟨i, hi, rfl⟩
    obtain ⟨h1, h2, h3⟩ := find?_range_eq_some.1 hi
    exact ⟨i, h1, by simpa using h2, fun j hj => by simpa using h3 j hj, rfl⟩
  · rintro ⟨i, h1, h2, h3, rfl⟩
    exact ⟨i, find?_range_eq_some.2 ⟨h1, by simpa using h2, fun j hj => by simpa using h3 j hj⟩, rfl⟩

/-- The first index below a bound at which a function answers. -/
theorem findSome?_range_eq_some {β : Type} {f : Nat → Option β} {n : Nat} {b : β} :
    (List.range n).findSome? f = some b ↔ ∃ j < n, f j = some b ∧ ∀ i < j, f i = none := by
  induction n with
  | zero => simp
  | succ n ih =>
    rw [List.range_succ, List.findSome?_append, Option.or_eq_some_iff, ih]
    constructor
    · rintro (⟨j, hj, h1, h2⟩ | ⟨h1, h2⟩)
      · exact ⟨j, by omega, h1, h2⟩
      · refine ⟨n, by omega, by simpa using h2, fun i hi => ?_⟩
        exact List.findSome?_eq_none_iff.1 h1 i (List.mem_range.2 hi)
    · rintro ⟨j, hj, h1, h2⟩
      rcases Nat.lt_or_ge j n with hjn | hjn
      · exact .inl ⟨j, hjn, h1, h2⟩
      · obtain rfl : j = n := by omega
        exact .inr ⟨List.findSome?_eq_none_iff.2 fun i hi => h2 i (List.mem_range.1 hi), by simp [h1]⟩

/-- The second scan reports the pair with the smallest `j` and for it the smallest `i` (43_lagrange_interpolator.md R203). -/
theorem duplicateScan_eq_some {s : State} {f : Failure} : s.duplicateScan = some f ↔
    ∃ j < s.K.toNat, ∃ i < j, s.SX.read i = s.SX.read j ∧ (∀ i' < i, s.SX.read i' ≠ s.SX.read j)
      ∧ (∀ j' < j, ∀ i' < j', s.SX.read i' ≠ s.SX.read j') ∧ f = ⟨.duplicateIndex, i, j⟩ := by
  rw [State.duplicateScan, findSome?_range_eq_some]
  simp only [Option.map_eq_some_iff, Option.map_eq_none_iff, find?_range_eq_none, beq_eq_false_iff_ne]
  constructor
  · rintro ⟨j, hj, ⟨i, hi, rfl⟩, hbefore⟩
    obtain ⟨h1, h2, h3⟩ := find?_range_eq_some.1 hi
    exact ⟨j, hj, i, h1, by simpa using h2, fun i' hi' => by simpa using h3 i' hi', hbefore, rfl⟩
  · rintro ⟨j, hj, i, h1, h2, h3, hbefore, rfl⟩
    exact ⟨j, hj, ⟨i, find?_range_eq_some.2 ⟨h1, by simpa using h2, fun i' hi' => by simpa using h3 i' hi'⟩, rfl⟩, hbefore⟩

theorem pevalFailure_eq_none {s : State} :
    s.pevalFailure = none ↔ 2 ≤ s.T.toNat ∧ s.T.toNat ≤ s.cfg.NMAX ∧ s.xinResidue ≠ 0 := by
  rw [State.pevalFailure, tests_eq_none, tests_eq_none, raiseIf_eq_none, raiseIf_eq_none, raiseIf_eq_none]
  omega

theorem splitFailure_eq_none {s : State} :
    s.splitFailure = none ↔ 2 ≤ s.T.toNat ∧ s.T.toNat ≤ s.N.toNat ∧ s.N.toNat ≤ s.cfg.NMAX := by
  rw [State.splitFailure, tests_eq_none, tests_eq_none, raiseIf_eq_none, raiseIf_eq_none, raiseIf_eq_none]
  omega

theorem scanFailure_eq_none {s : State} : s.scanFailure = none ↔
    (∀ i < s.K.toNat, s.xs i ≠ 0) ∧ ∀ j < s.K.toNat, ∀ i < j, s.SX.read i ≠ s.SX.read j := by
  rw [State.scanFailure, tests_eq_none, reservedScan_eq_none, duplicateScan_eq_none]

theorem lbasisFailure_eq_none {i : Nat} {s : State} : s.lbasisFailure i = none ↔
    (2 ≤ s.K.toNat ∧ s.K.toNat ≤ s.cfg.NMAX) ∧ i < s.K.toNat
      ∧ ((∀ i < s.K.toNat, s.xs i ≠ 0) ∧ ∀ j < s.K.toNat, ∀ i < j, s.SX.read i ≠ s.SX.read j)
      ∧ basisDen s.cfg.P s.xs s.K.toNat i ≠ 0 := by
  rw [State.lbasisFailure, tests_eq_none, tests_eq_none, tests_eq_none, countFailure_eq_none, scanFailure_eq_none,
    raiseIf_eq_none, raiseIf_eq_none, Nat.not_le]

theorem combineFailure_eq_none {s : State} : s.combineFailure = none ↔
    (2 ≤ s.K.toNat ∧ s.K.toNat ≤ s.cfg.NMAX)
      ∧ ((∀ i < s.K.toNat, s.xs i ≠ 0) ∧ ∀ j < s.K.toNat, ∀ i < j, s.SX.read i ≠ s.SX.read j)
      ∧ ∀ i < s.K.toNat, basisDen s.cfg.P s.xs s.K.toNat i ≠ 0 := by
  rw [State.combineFailure, tests_eq_none, tests_eq_none, countFailure_eq_none, scanFailure_eq_none, denominatorScan_eq_none]

/-- A denominator is 0 exactly when another share has the same residue. -/
theorem basisDen_eq_zero {cfg : Config} {xs : Nat → Nat} {K i : Nat} (hxs : ∀ j, xs j < cfg.P) :
    basisDen cfg.P xs K i = 0 ↔ ∃ j < K, j ≠ i ∧ xs j = xs i := by
  have hp := cfg.ok.prime
  have := Fact.mk hp
  have h1 : basisDen cfg.P xs K i = 0 ↔ ((basisDen cfg.P xs K i : Nat) : ZMod cfg.P) = 0 := by
    constructor
    · intro h; rw [h]; simp
    · intro h
      exact eq_of_cast_eq (basisDen_lt hp.pos _ _ _) hp.pos (by simpa using h)
  rw [h1, cast_basisDen hp.pos, Finset.prod_eq_zero_iff]
  simp only [sub_eq_zero, Finset.mem_erase, Finset.mem_range]
  constructor
  · rintro ⟨j, ⟨h1, h2⟩, h3⟩; exact ⟨j, h2, h1, (eq_of_cast_eq (hxs i) (hxs j) h3).symm⟩
  · rintro ⟨j, h2, h1, h3⟩; exact ⟨j, ⟨h1, h2⟩, by rw [h3]⟩

end Sys2Proof.Machine
end

