-- ==== Sys2Proof/Laws/Memory.lean ====
section
/-! SUPPORT. The memories COEF, SX, SY: a write gives the value written at its index and leaves every other entry alone, and every operation keeps the canonical form. -/

namespace Sys2Proof.Machine

variable {α : Type} [OfNat α 0]

@[simp] theorem Memory.read_nil (i : Nat) : Memory.read ([] : Memory α) i = 0 := rfl

theorem Memory.read_cons (k : Nat) (v : α) (m : Memory α) (i : Nat) :
    Memory.read ((k, v) :: m) i = if k = i then v else Memory.read m i := rfl

theorem Memory.wf_nil : Memory.wf ([] : Memory α) := by simp [Memory.wf]

theorem Memory.wf_cons {k : Nat} {v : α} {m : Memory α} :
    Memory.wf ((k, v) :: m) ↔ (∀ c ∈ m, k < c.1) ∧ v ≠ 0 ∧ Memory.wf m := by
  simp only [Memory.wf, List.pairwise_cons, List.mem_cons, forall_eq_or_imp]
  tauto

/-- An index below every listed one reads 0. -/
theorem Memory.read_of_lt {m : Memory α} {i : Nat} (h : ∀ c ∈ m, i < c.1) : Memory.read m i = 0 := by
  induction m with
  | nil => rfl
  | cons c m ih =>
    obtain ⟨k, v⟩ := c
    have hk : i < k := h (k, v) (by simp)
    rw [Memory.read_cons, if_neg (by omega)]
    exact ih fun c hc => h c (by simp [hc])

/-- An unlisted index reads 0. -/
theorem Memory.read_of_not_mem {m : Memory α} {i : Nat} (h : ∀ c ∈ m, c.1 ≠ i) : Memory.read m i = 0 := by
  induction m with
  | nil => rfl
  | cons c m ih =>
    obtain ⟨k, v⟩ := c
    rw [Memory.read_cons, if_neg (h (k, v) (by simp))]
    exact ih fun c hc => h c (by simp [hc])

theorem Memory.read_of_within {m : Memory α} {n i : Nat} (h : Memory.within m n) (hi : n ≤ i) : Memory.read m i = 0 :=
  Memory.read_of_not_mem fun c hc => by have := h c hc; omega

/-- Two canonical memories that read alike are the same list. -/
theorem Memory.ext_of_read {m m' : Memory α} (h : Memory.wf m) (h' : Memory.wf m')
    (hr : ∀ i, Memory.read m i = Memory.read m' i) : m = m' := by
  induction m generalizing m' with
  | nil =>
    cases m' with
    | nil => rfl
    | cons c m' =>
      obtain ⟨k, v⟩ := c
      have := hr k
      simp only [Memory.read_nil, Memory.read_cons, if_true] at this
      exact absurd this.symm (Memory.wf_cons.1 h').2.1
  | cons c m ih =>
    obtain ⟨k, v⟩ := c
    obtain ⟨hlt, hv, hm⟩ := Memory.wf_cons.1 h
    cases m' with
    | nil =>
      have := hr k
      simp only [Memory.read_nil, Memory.read_cons, if_true] at this
      exact absurd this hv
    | cons c' m' =>
      obtain ⟨k', v'⟩ := c'
      obtain ⟨hlt', hv', hm'⟩ := Memory.wf_cons.1 h'
      have hkk : k = k' := by
        rcases Nat.lt_trichotomy k k' with hlt1 | heq | hlt1
        · exfalso
          have := hr k
          rw [Memory.read_cons, if_pos rfl, Memory.read_cons, if_neg (by omega),
            Memory.read_of_lt (fun c hc => by have := hlt' c hc; omega)] at this
          exact hv this
        · exact heq
        · exfalso
          have := hr k'
          rw [Memory.read_cons, if_neg (by omega), Memory.read_cons, if_pos rfl,
            Memory.read_of_lt (fun c hc => by have := hlt c hc; omega)] at this
          exact hv' this.symm
      subst hkk
      have hvv : v = v' := by have := hr k; simpa [Memory.read_cons] using this
      subst hvv
      congr 1
      refine ih hm hm' fun i => ?_
      have := hr i
      simp only [Memory.read_cons] at this
      split at this
      · subst_vars; rw [Memory.read_of_lt hlt, Memory.read_of_lt hlt']
      · exact this

variable [DecidableEq α]

/-- Reading after a write, in a canonical memory. -/
theorem Memory.read_write {m : Memory α} (h : Memory.wf m) (i j : Nat) (v : α) :
    Memory.read (Memory.write m i v) j = if j = i then v else Memory.read m j := by
  induction m with
  | nil =>
    by_cases hv : v = 0 <;> by_cases hj : j = i <;> simp [Memory.write, Memory.read_cons, hv, hj, eq_comm]
    all_goals (intro h'; exact absurd h'.symm hj)
  | cons c m ih =>
    obtain ⟨k, w⟩ := c
    obtain ⟨hlt, hw, hm⟩ := Memory.wf_cons.1 h
    have ih := ih hm
    rcases Nat.lt_trichotomy k i with hki | hki | hki
    · simp only [Memory.write, if_pos hki, Memory.read_cons, ih]
      by_cases hkj : k = j
      · subst hkj; simp [show k ≠ i by omega]
      · simp [hkj]
    · subst hki
      have hread : Memory.read m k = 0 := Memory.read_of_lt hlt
      by_cases hv : v = 0
      · simp only [Memory.write, Nat.lt_irrefl, if_false, if_true, if_pos hv, Memory.read_cons]
        by_cases hj : j = k
        · subst hj; simp [hread, hv]
        · simp [hj, Ne.symm hj]
      · simp only [Memory.write, Nat.lt_irrefl, if_false, if_true, if_neg hv, Memory.read_cons]
        by_cases hj : j = k
        · subst hj; simp
        · simp [hj, Ne.symm hj]
    · have hread : Memory.read ((k, w) :: m) i = 0 := Memory.read_of_lt fun c hc => by
        rcases List.mem_cons.1 hc with rfl | hc
        · exact hki
        · have := hlt c hc; omega
      by_cases hv : v = 0
      · simp only [Memory.write, if_neg (show ¬ k < i by omega), if_neg (show ¬ k = i by omega), if_pos hv]
        by_cases hj : j = i
        · subst hj; simp [hread, hv]
        · simp [hj]
      · simp only [Memory.write, if_neg (show ¬ k < i by omega), if_neg (show ¬ k = i by omega), if_neg hv]
        rw [Memory.read_cons]
        by_cases hj : j = i
        · subst hj; simp
        · simp [hj, Ne.symm hj]

/-- A written index is listed among the old ones or is the new one. -/
theorem Memory.mem_write {m : Memory α} {i : Nat} {v : α} {c : Nat × α} (h : c ∈ Memory.write m i v) :
    c = (i, v) ∨ c ∈ m := by
  induction m with
  | nil =>
    by_cases hv : v = 0
    · simp [Memory.write, hv] at h
    · simp [Memory.write, hv] at h; exact .inl h
  | cons d m ih =>
    obtain ⟨k, w⟩ := d
    simp only [Memory.write] at h
    split at h
    · rcases List.mem_cons.1 h with rfl | h
      · simp
      · rcases ih h with h | h
        · exact .inl h
        · exact .inr (List.mem_cons_of_mem _ h)
    · split at h
      · split at h
        · exact .inr (List.mem_cons_of_mem _ h)
        · rcases List.mem_cons.1 h with rfl | h
          · exact .inl rfl
          · exact .inr (List.mem_cons_of_mem _ h)
      · split at h
        · exact .inr h
        · rcases List.mem_cons.1 h with rfl | h
          · exact .inl rfl
          · exact .inr h

/-- A write keeps the canonical form. -/
theorem Memory.write_wf {m : Memory α} (h : Memory.wf m) (i : Nat) (v : α) : Memory.wf (Memory.write m i v) := by
  induction m with
  | nil => by_cases hv : v = 0 <;> simp [Memory.write, hv, Memory.wf]
  | cons c m ih =>
    obtain ⟨k, w⟩ := c
    obtain ⟨hlt, hw, hm⟩ := Memory.wf_cons.1 h
    simp only [Memory.write]
    split
    · refine Memory.wf_cons.2 ⟨fun c hc => ?_, hw, ih hm⟩
      rcases Memory.mem_write hc with rfl | hc
      · assumption
      · exact hlt c hc
    · split
      · split
        · exact hm
        · exact Memory.wf_cons.2 ⟨fun c hc => by have := hlt c hc; omega, by assumption, hm⟩
      · split
        · exact h
        · refine Memory.wf_cons.2 ⟨fun c hc => ?_, by assumption, h⟩
          rcases List.mem_cons.1 hc with rfl | hc
          · omega
          · have := hlt c hc; omega

theorem Memory.write_within {m : Memory α} {n : Nat} (h : Memory.within m n) {i : Nat} (hi : i < n) (v : α) :
    Memory.within (Memory.write m i v) n := fun c hc => by
  rcases Memory.mem_write hc with rfl | hc
  · exact hi
  · exact h c hc

theorem Memory.writeRange_succ (m : Memory α) (n : Nat) (f : Nat → α) :
    Memory.writeRange m (n + 1) f = Memory.write (Memory.writeRange m n f) n (f n) := by
  simp [Memory.writeRange, List.range_succ]

theorem Memory.writeRange_wf {m : Memory α} (h : Memory.wf m) (n : Nat) (f : Nat → α) :
    Memory.wf (Memory.writeRange m n f) := by
  induction n with
  | zero => exact h
  | succ n ih => rw [Memory.writeRange_succ]; exact Memory.write_wf ih _ _

theorem Memory.writeRange_within {m : Memory α} {b : Nat} (h : Memory.within m b) {n : Nat} (hn : n ≤ b) (f : Nat → α) :
    Memory.within (Memory.writeRange m n f) b := by
  induction n with
  | zero => exact h
  | succ n ih => rw [Memory.writeRange_succ]; exact Memory.write_within (ih (by omega)) (by omega) _

/-- After a range write, the entries below `n` are the written ones and the others are as before. -/
theorem Memory.read_writeRange {m : Memory α} (h : Memory.wf m) (n : Nat) (f : Nat → α) (j : Nat) :
    Memory.read (Memory.writeRange m n f) j = if j < n then f j else Memory.read m j := by
  induction n with
  | zero => rfl
  | succ n ih =>
    rw [Memory.writeRange_succ, Memory.read_write (Memory.writeRange_wf h n f), ih]
    rcases Nat.lt_trichotomy j n with hj | hj | hj
    · simp [show j ≠ n by omega, show j < n by omega, show j < n + 1 by omega]
    · subst hj; simp
    · simp [show j ≠ n by omega, show ¬ j < n by omega, show ¬ j < n + 1 by omega]

end Sys2Proof.Machine
end

