-- ==== Sys2Proof/Laws/PerInstr.lean ====
section
/-! SUPPORT. Per-command lemmas. Family WordFields: the fields of a well-formed command's word are the command's operands, and the fields its format lists under "must be zero" are zero (30_encoding.md R91, R93, R95). -/

namespace Sys2Proof.Laws.WordFields

/-- The row of the command's opcode exists; its must-be-zero fields are zero in the command's word, and the word's fields build the
command back. -/
def Statement (i : Instr) : Prop :=
  i.wf = true → ∃ r ∈ opcodeTable, r.opc = (fieldsOf (encode i)).opc
    ∧ (∀ o ∈ r.format.mustBeZero, (fieldsOf (encode i)).operand o = 0) ∧ r.make (fieldsOf (encode i)) = i

theorem nop : Statement (.nop) := fun h => by
  rw [fieldsOf_encode _ h]
  exact ⟨opcodeTable[0], by simp [opcodeTable], rfl, by simp [opcodeTable, Format.mustBeZero, Fields.operand, Instr.fields], rfl⟩

theorem madd (d : Reg) (a : Reg) (b : Reg) : Statement (.madd d a b) := fun h => by
  rw [fieldsOf_encode _ h]
  exact ⟨opcodeTable[1], by simp [opcodeTable], rfl, by simp [opcodeTable, Format.mustBeZero, Fields.operand, Instr.fields], rfl⟩

theorem msub (d : Reg) (a : Reg) (b : Reg) : Statement (.msub d a b) := fun h => by
  rw [fieldsOf_encode _ h]
  exact ⟨opcodeTable[2], by simp [opcodeTable], rfl, by simp [opcodeTable, Format.mustBeZero, Fields.operand, Instr.fields], rfl⟩

theorem mmul (d : Reg) (a : Reg) (b : Reg) : Statement (.mmul d a b) := fun h => by
  rw [fieldsOf_encode _ h]
  exact ⟨opcodeTable[3], by simp [opcodeTable], rfl, by simp [opcodeTable, Format.mustBeZero, Fields.operand, Instr.fields], rfl⟩

theorem minv (d : Reg) (a : Reg) : Statement (.minv d a) := fun h => by
  rw [fieldsOf_encode _ h]
  exact ⟨opcodeTable[4], by simp [opcodeTable], rfl, by simp [opcodeTable, Format.mustBeZero, Fields.operand, Instr.fields], rfl⟩

theorem mdiv (d : Reg) (a : Reg) (b : Reg) : Statement (.mdiv d a b) := fun h => by
  rw [fieldsOf_encode _ h]
  exact ⟨opcodeTable[5], by simp [opcodeTable], rfl, by simp [opcodeTable, Format.mustBeZero, Fields.operand, Instr.fields], rfl⟩

theorem ldf (d : Reg) : Statement (.ldf d) := fun h => by
  rw [fieldsOf_encode _ h]
  exact ⟨opcodeTable[6], by simp [opcodeTable], rfl, by simp [opcodeTable, Format.mustBeZero, Fields.operand, Instr.fields], rfl⟩

theorem stf (a : Reg) : Statement (.stf a) := fun h => by
  rw [fieldsOf_encode _ h]
  exact ⟨opcodeTable[7], by simp [opcodeTable], rfl, by simp [opcodeTable, Format.mustBeZero, Fields.operand, Instr.fields], rfl⟩

theorem mvtc (i : Nat) (a : Reg) : Statement (.mvtc i a) := fun h => by
  rw [fieldsOf_encode _ h]
  exact ⟨opcodeTable[8], by simp [opcodeTable], rfl, by simp [opcodeTable, Format.mustBeZero, Fields.operand, Instr.fields], rfl⟩

theorem mvty (i : Nat) (a : Reg) : Statement (.mvty i a) := fun h => by
  rw [fieldsOf_encode _ h]
  exact ⟨opcodeTable[9], by simp [opcodeTable], rfl, by simp [opcodeTable, Format.mustBeZero, Fields.operand, Instr.fields], rfl⟩

theorem mvfy (d : Reg) (i : Nat) : Statement (.mvfy d i) := fun h => by
  rw [fieldsOf_encode _ h]
  exact ⟨opcodeTable[10], by simp [opcodeTable], rfl, by simp [opcodeTable, Format.mustBeZero, Fields.operand, Instr.fields], rfl⟩

theorem setx (i : Nat) : Statement (.setx i) := fun h => by
  rw [fieldsOf_encode _ h]
  exact ⟨opcodeTable[11], by simp [opcodeTable], rfl, by simp [opcodeTable, Format.mustBeZero, Fields.operand, Instr.fields], rfl⟩

theorem getx (i : Nat) : Statement (.getx i) := fun h => by
  rw [fieldsOf_encode _ h]
  exact ⟨opcodeTable[12], by simp [opcodeTable], rfl, by simp [opcodeTable, Format.mustBeZero, Fields.operand, Instr.fields], rfl⟩

theorem peval (d : Reg) : Statement (.peval d) := fun h => by
  rw [fieldsOf_encode _ h]
  exact ⟨opcodeTable[13], by simp [opcodeTable], rfl, by simp [opcodeTable, Format.mustBeZero, Fields.operand, Instr.fields], rfl⟩

theorem split : Statement (.split) := fun h => by
  rw [fieldsOf_encode _ h]
  exact ⟨opcodeTable[14], by simp [opcodeTable], rfl, by simp [opcodeTable, Format.mustBeZero, Fields.operand, Instr.fields], rfl⟩

theorem lbasis (d : Reg) (i : Nat) : Statement (.lbasis d i) := fun h => by
  rw [fieldsOf_encode _ h]
  exact ⟨opcodeTable[15], by simp [opcodeTable], rfl, by simp [opcodeTable, Format.mustBeZero, Fields.operand, Instr.fields], rfl⟩

theorem combine (d : Reg) : Statement (.combine d) := fun h => by
  rw [fieldsOf_encode _ h]
  exact ⟨opcodeTable[16], by simp [opcodeTable], rfl, by simp [opcodeTable, Format.mustBeZero, Fields.operand, Instr.fields], rfl⟩

theorem zero : Statement (.zero) := fun h => by
  rw [fieldsOf_encode _ h]
  exact ⟨opcodeTable[17], by simp [opcodeTable], rfl, by simp [opcodeTable, Format.mustBeZero, Fields.operand, Instr.fields], rfl⟩

end Sys2Proof.Laws.WordFields
end

