-- ==== Sys2Proof/Laws/Port.lean ====
section
/-! SUPPORT. The register map and what a step can do, one lemma per kind of move. -/

namespace Sys2Proof.Machine

/-! ### The register map -/

/-- Every word of the map is found at its own offset. -/
@[simp] theorem portWordAt_offset (w : PortWord) : portWordAt w.offset 4 = some w := by
  cases w with
  | inW k => revert k; decide
  | outW k => revert k; decide
  | _ => decide

/-- An access names a word only when it is 32 bits wide and at the word's offset (20_memory.md R64, R65). -/
theorem portWordAt_eq_some {off width : Nat} {w : PortWord} :
    portWordAt off width = some w ↔ width = 4 ∧ off = w.offset := by
  constructor
  · intro h
    by_cases hw : width = 4
    · simp only [portWordAt, if_pos hw] at h
      exact ⟨hw, (by simpa using List.find?_some h : w.offset = off).symm⟩
    · simp [portWordAt, hw] at h
  · rintro ⟨rfl, rfl⟩
    exact portWordAt_offset w

/-- The readable words are those the map marks RO or RW (20_memory.md R64). -/
theorem wordValue_isSome (s : State) (w : PortWord) : (s.wordValue w).isSome = true ↔ w.access ≠ .WO := by
  cases w <;> simp [State.wordValue, PortWord.access]

/-- The words whose write replaces a register are those the map marks RW (20_memory.md R63, R64). -/
theorem setWord_isSome (s : State) (w : PortWord) (v : Word) : (s.setWord w v).isSome = true ↔ w.access = .RW := by
  cases w <;> simp [State.setWord, PortWord.access]

theorem wordValue_eq_none {s : State} {w : PortWord} : s.wordValue w = none ↔ w = .cmd := by
  cases w <;> simp [State.wordValue]

/-! ### One step -/

theorem step_idle {s : State} (h : s.port = []) : step s = .next s := by
  simp [step, State.accept, h]

/-- A waiting move is performed on the state from whose port it is taken. -/
theorem step_move {s : State} {m : HostMove} {rest : List HostMove} (h : s.port = m :: rest) :
    step s = State.perform { s with port := rest } m := by
  simp [step, State.accept, h]

theorem perform_reset (s : State) : s.perform .reset = .next s.clear := rfl

theorem perform_read_ok {s : State} {w : PortWord} {v : Word} (hv : s.wordValue w = some v) :
    s.perform (.read w.offset 4) = .next (s.respond (.value v)) := by
  simp [State.perform, State.readTransaction, hv]

theorem perform_read_error {s : State} {off width : Nat} (h : (portWordAt off width).bind s.wordValue = none) :
    s.perform (.read off width) = .next (s.respond .error) := by
  simp [State.perform, State.readTransaction, h]

theorem perform_write_cmd (s : State) (v : Word) :
    s.perform (.write PortWord.cmd.offset 4 v) = mapNext (fun t => t.respond .okay) (issueCommand v s) := by
  simp [State.perform, State.writeTransaction]

theorem perform_write_ok {s t : State} {w : PortWord} {v : Word} (h : s.setWord w v = some t) :
    s.perform (.write w.offset 4 v) = .next (t.respond .okay) := by
  cases w <;> simp_all [State.perform, State.writeTransaction, State.setWord]

theorem perform_write_readOnly {s : State} {w : PortWord} (hw : w.access = .RO) (v : Word) :
    s.perform (.write w.offset 4 v) = .next (s.respond .error) := by
  cases w <;> simp_all [State.perform, State.writeTransaction, State.setWord, PortWord.access]

theorem perform_write_error {s : State} {off width : Nat} (h : portWordAt off width = none) (v : Word) :
    s.perform (.write off width v) = .next (s.respond .error) := by
  simp [State.perform, State.writeTransaction, h]

/-- What a word written to `CMD` does, for a word that decodes. -/
theorem issueCommand_ok {w : Word} {i : Instr} (h : decode w = .ok i) (s : State) : issueCommand w s = exec i s := by
  simp [issueCommand, h]

/-- What an illegal word written to `CMD` does. -/
theorem issueCommand_error {w : Word} {e : DecodeError} (h : decode w = .error e) (s : State) :
    issueCommand w s = .next (s.fail (fieldsOf w).opc ⟨.illegalCommand, 0, 0⟩) := by
  simp [issueCommand, h]

/-! ### Byte strings by word -/

theorem wordOfBytes_toNat (B : Bytes32) (k : Fin 8) : (wordOfBytes B k).toNat =
    (B[4 * k.val]).toNat * 2 ^ 24 + (B[4 * k.val + 1]).toNat * 2 ^ 16 + (B[4 * k.val + 2]).toNat * 2 ^ 8 + (B[4 * k.val + 3]).toNat := by
  have h : (wordOfBytes B k).toNat = (((B[4 * k.val] ++ B[4 * k.val + 1]) ++ B[4 * k.val + 2]) ++ B[4 * k.val + 3]).toNat := rfl
  rw [h, append_toNat, append_toNat, append_toNat]
  ring

/-- The four bytes of a word read from a byte string. -/
theorem wordOfBytes_bytes (B : Bytes32) (k : Fin 8) : (wordOfBytes B k).extractLsb' 24 8 = B[4 * k.val] ∧ (wordOfBytes B k).extractLsb' 16 8 = B[4 * k.val + 1]
   ∧ (wordOfBytes B k).extractLsb' 8 8 = B[4 * k.val + 2] ∧ (wordOfBytes B k).extractLsb' 0 8 = B[4 * k.val + 3] := by
  have h : (wordOfBytes B k).toNat = (((B[4 * k.val] ++ B[4 * k.val + 1]) ++ B[4 * k.val + 2]) ++ B[4 * k.val + 3]).toNat := rfl
  rw [append_toNat, append_toNat, append_toNat] at h
  have h1 := (B[4 * k.val]).isLt
  have h2 := (B[4 * k.val+1]).isLt
  have h3 := (B[4 * k.val+2]).isLt
  have h4 := (B[4 * k.val+3]).isLt
  refine ⟨?_, ?_, ?_, ?_⟩ <;> apply BitVec.eq_of_toNat_eq <;> rw [BitVec.extractLsb'_toNat, h, Nat.shiftRight_eq_div_pow] <;> omega

/-- Byte `j` of a byte string with word `k` replaced by word `k` of another. -/
theorem setWordOfBytes_getElem (A B : Bytes32) (k : Fin 8) (j : Nat) (hj : j < 32) : (setWordOfBytes A k (wordOfBytes B k))[j] = if j / 4 = k.val then B[j] else A[j] := by
  obtain ⟨h0, h1, h2, h3⟩ := wordOfBytes_bytes B k
  simp only [setWordOfBytes, Vector.getElem_set, h0, h1, h2, h3]
  split_ifs <;> first | (subst_vars; rfl) | omega

/-! ### A write, case by case -/

theorem setWord_keeps {s t : State} {w : PortWord} {v : Word} (h : s.setWord w v = some t) :
    t.port = s.port ∧ t.responses = s.responses ∧ t.cfg = s.cfg := by
  cases w <;> simp [State.setWord] at h <;> subst h <;> simp

/-- A word written to `CMD` always has an outcome, and it touches neither the host's moves and responses nor the configuration. -/
theorem issueCommand_next (w : Word) (s : State) :
    ∃ t, issueCommand w s = .next t ∧ t.port = s.port ∧ t.responses = s.responses ∧ t.cfg = s.cfg := by
  unfold issueCommand
  split
  · rename_i i _
    cases h : failureOf i s with
    | none => exact ⟨_, exec_of_none h, exec_keeps_port (exec_of_none h)⟩
    | some f => exact ⟨_, exec_of_some h, exec_keeps_port (exec_of_some h)⟩
  · exact ⟨_, rfl, rfl, rfl, rfl⟩

/-- Everything a write transaction can do. -/
theorem writeTransaction_cases (s : State) (off width : Nat) (v : Word) :
    s.writeTransaction off width v = .next (s.respond .error)
    ∨ (∃ u, issueCommand v s = .next u ∧ s.writeTransaction off width v = .next (u.respond .okay))
    ∨ (∃ w u, s.setWord w v = some u ∧ s.writeTransaction off width v = .next (u.respond .okay)) := by
  unfold State.writeTransaction
  split
  · exact .inl rfl
  · obtain ⟨u, hu, _⟩ := issueCommand_next v s
    exact .inr (.inl ⟨u, hu, by rw [hu]; rfl⟩)
  · rename_i w _ _
    split
    · rename_i t ht
      exact .inr (.inr ⟨w, t, ht, rfl⟩)
    · exact .inl rfl

end Sys2Proof.Machine
end

