-- ==== Sys2Proof/Laws/Safety.lean ====
section
/-! SUPPORT. What the invariant depends on, and that reset memories are canonical. -/

namespace Sys2Proof.Machine

/-- The reset memories are in canonical form. -/
theorem State.resetFor_memories_wf (cfg : Config) :
    Memory.wf (State.resetFor cfg).COEF ∧ Memory.wf (State.resetFor cfg).SX ∧ Memory.wf (State.resetFor cfg).SY :=
  ⟨Memory.wf_nil, Memory.wf_nil, Memory.wf_nil⟩

/-- The invariant looks at the configuration, the field registers, the memories, `CODE` and `EINFO` only. -/
theorem State.Inv.congr {s t : State} (h : s.Inv) (hc : t.cfg = s.cfg) (hF : t.F = s.F)
    (h1 : t.COEF = s.COEF) (h2 : t.SX = s.SX) (h3 : t.SY = s.SY)
    (h4 : t.CODE ∈ producedCodes) (h5 : t.CODE = 0 → t.EINFO = 0) : t.Inv := by
  obtain ⟨a1,a2,a3,a4,a5,a6,a7,a8,a9,a10,a11⟩ := h
  have hr : ∀ r, t.readF r = s.readF r := fun r => by simp only [State.readF, hF]
  refine ⟨fun r => ?_,fun i => ?_,fun i => ?_,?_,?_,?_,?_,?_,?_,h4,h5⟩
  · rw [hr, hc]; exact a1 r
  · rw [h1, hc]; exact a2 i
  · rw [h3, hc]; exact a3 i
  · rw [h1]; exact a4
  · rw [h2]; exact a5
  · rw [h3]; exact a6
  · rw [h1, hc]; exact a7
  · rw [h2, hc]; exact a8
  · rw [h3, hc]; exact a9

/-- A field element written to a register by a command that succeeds keeps the invariant. -/
theorem State.Inv.writeF_succeed {s : State} (h : s.Inv) (r : Reg) (v : Nat) (hv : v < s.cfg.P) : ((s.writeF r v).succeed).Inv := by
  obtain ⟨a1,a2,a3,a4,a5,a6,a7,a8,a9,a10,a11⟩ := h
  refine ⟨fun q => ?_,a2,a3,a4,a5,a6,a7,a8,a9,by simp [producedCodes],by simp⟩
  simp [State.readF_writeF]; split
  · exact hv
  · exact a1 q

end Sys2Proof.Machine
end

