-- ==== Sys2Proof/Tests/Slice0.lean ====
section
/-! SUPPORT. The model's own tests: the well-formedness smoke, decoding from words written out from 30_encoding.md R95, at most two small tests per command with expected values from 95_test_vectors.md and 96_more_vectors.md, and for every statement with hypotheses a witness that meets them. -/

namespace Sys2Proof.Tests

-- Each test is checked before the next is read: many kernel evaluations waiting side by side need a thread each.
set_option Elab.async false

open Sys2Proof.Machine Sys2Proof.Claims

/-! ### Helpers -/

/-- The next state of an outcome; the reset state of TEST13 when there is none (no test below meets that case). -/
def after (o : Host.Outcome State Fault Refusal) : State :=
  match o with
  | .next t => t
  | .fault _ => State.resetFor Config.test13
  | .refused _ => State.resetFor Config.test13

/-- TEST13 after reset. -/
def t13 : State := State.resetFor Config.test13

/-- A state with some field registers set. -/
def withF (s : State) (l : List (Reg × Nat)) : State := l.foldl (fun s p => s.writeF p.1 p.2) s

/-- A state with a share table and a count. -/
def withShares (s : State) (K : Word) (l : List (Word × Nat)) : State :=
  { s with
    K := K
    SX := s.SX.writeRange l.length (fun i => (l.getD i (0, 0)).1)
    SY := s.SY.writeRange l.length (fun i => (l.getD i (0, 0)).2) }

/-- A state with the polynomial 2 + 5x + 7x² and counts. -/
def withPoly (s : State) (T N : Word) : State := { s with COEF := [(0, 2), (1, 5), (2, 7)], T := T, N := N }

/-- A state with one waiting move. -/
def offered (s : State) (m : HostMove) : State := { s with port := [m] }

/-- 32 bytes with the value `v`, byte by byte. -/
def bytes (v : Nat) : Bytes32 := Vector.ofFn fun i => BitVec.ofNat 8 (v / 2 ^ (8 * (31 - i.val)))

/-- What a command leaves: the value of `f`, `CODE` and `EINFO`. -/
def outcome {α : Type} (i : Instr) (s : State) (f : State → α) : α × Byte × Word :=
  let t := after (exec i s)
  (f t, t.CODE, t.EINFO)

theorem exec_next (i : Instr) (s : State) : ∃ t, exec i s = .next t := by
  cases h : failureOf i s with
  | none => exact ⟨_, exec_of_none h⟩
  | some f => exact ⟨_, exec_of_some h⟩

/-! ### Well-formedness: an index that needs more than 12 bits has no word (30_encoding.md R91, R94) -/

theorem test_wf_mvtc : (Instr.mvtc 4096 0).wf = false ∧ (Instr.mvtc 4095 0).wf = true := by decide
theorem test_wf_mvty : (Instr.mvty 4096 0).wf = false ∧ (Instr.mvty 4095 0).wf = true := by decide
theorem test_wf_mvfy : (Instr.mvfy 0 4096).wf = false ∧ (Instr.mvfy 0 4095).wf = true := by decide
theorem test_wf_setx : (Instr.setx 4096).wf = false ∧ (Instr.setx 4095).wf = true := by decide
theorem test_wf_getx : (Instr.getx 4096).wf = false ∧ (Instr.getx 4095).wf = true := by decide
theorem test_wf_lbasis : (Instr.lbasis 0 4096).wf = false ∧ (Instr.lbasis 0 4095).wf = true := by decide

/-! ### Decoding: bits 31:24, 23:20, 19:16, 15:12, 11:0 as in the patterns of 30_encoding.md R95 -/

theorem test_decode_nop : decode 0b00000000_0000_0000_0000_000000000000 = .ok .nop := by decide
theorem test_decode_madd : decode 0b00000001_0011_0001_0010_000000000000 = .ok (.madd 3 1 2) := by decide
theorem test_decode_msub : decode 0b00000010_0011_0001_0010_000000000000 = .ok (.msub 3 1 2) := by decide
theorem test_decode_mmul : decode 0b00000011_1111_1110_1101_000000000000 = .ok (.mmul 15 14 13) := by decide
theorem test_decode_minv : decode 0b00000100_0100_0011_0000_000000000000 = .ok (.minv 4 3) := by decide
theorem test_decode_mdiv : decode 0b00000101_0011_0001_1111_000000000000 = .ok (.mdiv 3 1 15) := by decide
theorem test_decode_ldf : decode 0b00010000_0001_0000_0000_000000000000 = .ok (.ldf 1) := by decide
theorem test_decode_stf : decode 0b00010001_0000_0011_0000_000000000000 = .ok (.stf 3) := by decide
theorem test_decode_mvtc : decode 0b00010010_0000_0101_0000_000000000010 = .ok (.mvtc 2 5) := by decide
theorem test_decode_mvty : decode 0b00010011_0000_0001_0000_000000000100 = .ok (.mvty 4 1) := by decide
theorem test_decode_mvfy : decode 0b00010100_0001_0000_0000_000000000100 = .ok (.mvfy 1 4) := by decide
theorem test_decode_setx : decode 0b00010101_0000_0000_0000_000011111110 = .ok (.setx 254) := by decide
theorem test_decode_getx : decode 0b00010110_0000_0000_0000_111111111111 = .ok (.getx 4095) := by decide
theorem test_decode_peval : decode 0b00100000_0001_0000_0000_000000000000 = .ok (.peval 1) := by decide
theorem test_decode_split : decode 0b00100001_0000_0000_0000_000000000000 = .ok .split := by decide
theorem test_decode_lbasis : decode 0b00110000_0010_0000_0000_000000000001 = .ok (.lbasis 2 1) := by decide
theorem test_decode_combine : decode 0b00110001_1000_0000_0000_000000000000 = .ok (.combine 8) := by decide
theorem test_decode_zero : decode 0b01111111_0000_0000_0000_000000000000 = .ok .zero := by decide

/-- Words that 96_more_vectors.md section 4.3 lists as illegal, a nonzero field of every kind among them. -/
theorem test_decode_illegal :
    [(0x00000001 : Word), 0x00100000, 0x01312001, 0x04431000, 0x10110000, 0x11130000, 0x12100002, 0x12001002, 0x14110004,
        0x15100002, 0x20100001, 0x21000001, 0x30210001, 0x31001000, 0x7F000001, 0x06000000, 0x0F000000, 0x17000000, 0x22000000,
        0x32000000, 0x7E000000, 0x80000000, 0x81312000, 0xFFFFFFFF].all (fun w => !(decode w).isOk) = true := by decide +kernel

/-- The examples of 30_encoding.md R110, and words of 95_test_vectors.md. -/
theorem test_encode :
    encode .split = 0x21000000 ∧ encode (.madd 3 1 2) = 0x01312000 ∧ encode (.minv 4 3) = 0x04430000 ∧ encode (.ldf 1) = 0x10100000
      ∧ encode (.stf 3) = 0x11030000 ∧ encode (.mvfy 1 4) = 0x14100004 ∧ encode (.mvtc 2 0) = 0x12000002
      ∧ encode (.setx 254) = 0x150000FE ∧ encode (.mdiv 3 1 15) = 0x0531F000 := by decide

/-! ### Commands: one step each, TEST13 unless said otherwise; the vectors of 95_test_vectors.md and 96_more_vectors.md -/

theorem test_madd : outcome (.madd 3 1 2) (withF t13 [(1, 9), (2, 7)]) (·.readF 3) = (3, 0, 0) := by decide +kernel
theorem test_madd_same : outcome (.madd 15 14 15) (withF t13 [(14, 4), (15, 5)]) (·.readF 15) = (9, 0, 0) := by decide +kernel
theorem test_msub : outcome (.msub 3 1 2) (withF t13 [(1, 3), (2, 7)]) (·.readF 3) = (9, 0, 0) := by decide +kernel
theorem test_mmul : outcome (.mmul 3 1 2) (withF t13 [(1, 9), (2, 7)]) (·.readF 3) = (11, 0, 0) := by decide +kernel
theorem test_mmul_default :
    outcome (.mmul 3 1 2) (withF State.reset [(1, 2 ^ 256), (2, 2 ^ 256)]) (·.readF 3) = (88209, 0, 0) := by decide +kernel
theorem test_minv : outcome (.minv 4 3) (withF t13 [(3, 7)]) (·.readF 4) = (2, 0, 0) := by decide +kernel
theorem test_minv_zero : outcome (.minv 4 3) (withF t13 [(4, 6)]) (·.readF 4) = (6, 0x05, 0x04000003) := by decide +kernel
theorem test_mdiv : outcome (.mdiv 3 1 2) (withF t13 [(1, 5), (2, 7)]) (·.readF 3) = (10, 0, 0) := by decide +kernel
theorem test_mdiv_zero : outcome (.mdiv 3 1 15) (withF t13 [(1, 5)]) (·.readF 3) = (0, 0x05, 0x0500000F) := by decide +kernel
theorem test_ldf_negative : outcome (.ldf 0) { t13 with INS := 1, IN := bytes 3 } (·.readF 0) = (10, 0, 0) := by decide +kernel
theorem test_ldf_default :
    outcome (.ldf 0) { State.reset with INS := 1, IN := bytes (2 ^ 256 - 1) } (·.readF 0) = (298, 0, 0) := by decide +kernel
theorem test_stf : outcome (.stf 0) (withF t13 [(0, 12)]) (fun t => (t.OUT[0], t.OUT[31])) = ((0, 12), 0, 0) := by decide +kernel
theorem test_stf_overflow :
    outcome (.stf 3) (withF { State.reset with OUT := Vector.replicate 32 0x11 } [(3, 2 ^ 256)]) (·.OUT)
      = (Vector.replicate 32 0x11, 0x09, 0x11000003) := by decide +kernel
theorem test_mvtc : outcome (.mvtc 2 0) (withF t13 [(0, 2)]) (·.COEF) = ([(2, 2)], 0, 0) := by decide +kernel
theorem test_mvtc_range : outcome (.mvtc 12 0) (withF t13 [(0, 2)]) (·.COEF) = ([], 0x0B, 0x1200000C) := by decide +kernel
theorem test_mvty : outcome (.mvty 4 1) (withF t13 [(1, 9)]) (·.SY) = ([(4, 9)], 0, 0) := by decide +kernel
theorem test_mvfy : outcome (.mvfy 1 4) { t13 with SY := [(4, 9)] } (·.readF 1) = (9, 0, 0) := by decide +kernel
theorem test_mvfy_range : outcome (.mvfy 1 4095) { t13 with SY := [(4, 9)] } (·.readF 1) = (0, 0x0B, 0x14000FFF) := by decide +kernel
theorem test_setx : outcome (.setx 0) { t13 with XIN := 0xFFFFFFFF } (·.SX) = ([(0, 0xFFFFFFFF)], 0, 0) := by decide +kernel
theorem test_getx : outcome (.getx 2) { t13 with SX := [(2, 3)], XOUT := 77 } (·.XOUT) = (3, 0, 0) := by decide +kernel
theorem test_getx_range : outcome (.getx 12) { t13 with SX := [(2, 3)], XOUT := 77 } (·.XOUT) = (77, 0x0B, 0x1600000C) := by
  decide +kernel
theorem test_nop : outcome .nop { t13 with CODE := 0x05, EINFO := 0x04000003, XIN := 7 } (·.XIN) = (7, 0, 0) := by decide +kernel
theorem test_peval : outcome (.peval 1) { withPoly t13 3 0 with XIN := 17 } (·.readF 1) = (4, 0, 0) := by decide +kernel
theorem test_peval_reserved : outcome (.peval 1) { withPoly t13 3 0 with XIN := 13 } (·.readF 1) = (0, 0x08, 0x20000000) := by
  decide +kernel
theorem test_split :
    outcome .split (withPoly t13 3 5) (fun t => (t.SX, t.SY, t.COEF))
      = (([(0, 1), (1, 2), (2, 3), (3, 4), (4, 5)], [(0, 1), (1, 1), (2, 2), (3, 4), (4, 7)], []), 0, 0) := by decide +kernel
theorem test_split_count : outcome .split (withPoly t13 14 13) (fun t => t.COEF.read 1) = (5, 0x02, 0x21000000) := by decide +kernel
theorem test_lbasis : outcome (.lbasis 2 1) (withShares t13 3 [(1, 1), (3, 2), (5, 7)]) (·.readF 2) = (2, 0, 0) := by decide +kernel
theorem test_lbasis_collision :
    outcome (.lbasis 0 2) (withShares t13 3 [(1, 1), (3, 2), (16, 3)]) (·.readF 0) = (0, 0x05, 0x30000002) := by decide +kernel
theorem test_combine : outcome (.combine 0) (withShares t13 3 [(2, 1), (4, 4), (5, 7)]) (·.readF 0) = (2, 0, 0) := by decide +kernel
theorem test_combine_duplicate :
    outcome (.combine 0) (withShares t13 5 [(1, 1), (2, 1), (3, 1), (2, 1), (1, 1)]) (·.readF 0) = (0, 0x03, 0x31003001) := by
  decide +kernel

/-- A state in which every piece of state of 10_state.md R20 is nonzero. -/
def dirty : State :=
  { withF (withShares (withPoly t13 3 5) 3 [(1, 5)]) [(7, 8)] with
    XIN := 9
    XOUT := 4
    INS := 1
    IN := bytes 7
    OUT := bytes 8
    CODE := 0x05
    EINFO := 0x04000003 }

theorem test_zero : after (exec .zero dirty) = t13 := by decide +kernel

/-! ### The port (96_more_vectors.md section 4.4, 10_state.md R37) -/

/-- `CAP` of the three configurations. -/
theorem test_cap : capWord Config.default = 0x005010FF ∧ capWord Config.test13 = 0x0000400C ∧ capWord Config.test257 = 0x000090FF := by
  decide +kernel

/-- Reads and refused accesses from reset. -/
theorem test_reads :
    [(0x10, 4), (0x0C, 4), (0x04, 4), (0x00, 4), (0x2C, 4), (0x3C, 4), (0x80, 4), (0x41, 4), (0x06, 4), (0x10, 2)].map
        (fun a => (after (step (offered State.reset (.read a.1 a.2)))).responses)
      = [[.value 0x53535331], [.value 0x005010FF], [.value 0], [.error], [.error], [.error], [.error], [.error], [.error], [.error]] := by
  decide +kernel

/-- A write to a read-only word, to an unmapped offset and to `INS`. -/
theorem test_writes :
    ([(0x04, 0), (0x24, 5), (0x60, 1), (0x2C, 1), (0x42, 1), (0x28, 0xFFFFFFFE), (0x28, 0xFFFFFFFF)] : List (Nat × Word)).map
        (fun a => let t := after (step (offered State.reset (.write a.1 4 a.2))); (t.INS, t.responses))
      = [(0, [.error]), (0, [.error]), (0, [.error]), (0, [.error]), (0, [.error]), (0, [.okay]), (1, [.okay])] := by decide +kernel

/-- Byte order (20_memory.md R66): the top byte of `IN_W0` is `IN[0]`, the low byte of `IN_W7` is `IN[31]`. -/
theorem test_byte_order :
    (let t := after (step (offered State.reset (.write 0x40 4 0x01020304))); (t.IN[0], t.IN[3])) = (1, 4)
      ∧ (let t := after (step (offered State.reset (.write 0x5C 4 0x01020304))); (t.IN[28], t.IN[31])) = (1, 4) := by decide +kernel

/-- A placed word runs, and an illegal one leaves its top byte. -/
theorem test_placed :
    (after (step ((withF t13 [(1, 9), (2, 7)]).withFetchWord 32 0x01312000))).readF 3 = 3
      ∧ (after (step (t13.withFetchWord 32 0xFFFFFFFF))).EINFO = 0xFF000000 := by decide +kernel

/-- The assembler's spelling (30_encoding.md R110). -/
theorem test_assembly : assembly (.mvtc 2 0) = "MVTC 2, F0" ∧ assembly (.mvfy 1 4) = "MVFY F1, 4" := by decide +kernel

/-! ### The invariant of a concrete state, by its listed entries -/

theorem read_lt_of_listed {m : Memory Nat} {P : Nat} (hP : 0 < P) (h : ∀ c ∈ m, c.2 < P) (i : Nat) : m.read i < P := by
  induction m with
  | nil => exact hP
  | cons c m ih =>
    obtain ⟨k, v⟩ := c
    rw [Memory.read_cons]
    split
    · exact h (k, v) (by simp)
    · exact ih fun c hc => h c (by simp [hc])

/-- The invariant as a finite check. -/
def Checked (s : State) : Prop :=
  (∀ r : Reg, s.readF r < s.cfg.P) ∧ (∀ c ∈ s.COEF, c.2 < s.cfg.P) ∧ (∀ c ∈ s.SY, c.2 < s.cfg.P)
    ∧ Memory.wf s.COEF ∧ Memory.wf s.SX ∧ Memory.wf s.SY ∧ Memory.within s.COEF s.cfg.NMAX ∧ Memory.within s.SX s.cfg.NMAX
    ∧ Memory.within s.SY s.cfg.NMAX ∧ s.CODE ∈ producedCodes ∧ (s.CODE = 0 → s.EINFO = 0)

theorem inv_of_checked {s : State} (h : Checked s) : s.Inv := by
  obtain ⟨h1, h2, h3, h4, h5, h6, h7, h8, h9, h10, h11⟩ := h
  have hP := s.cfg.ok.prime.pos
  exact ⟨h1, read_lt_of_listed hP h2, read_lt_of_listed hP h3, h4, h5, h6, h7, h8, h9, h10, h11⟩

/-! ### Witnesses: a concrete case that meets the hypotheses of each statement that has any -/

/-- A TEST13 state with registers, coefficients and a share table. -/
def sample : State := withShares (withPoly (withF t13 [(1, 12), (2, 1)]) 2 12) 3 [(1, 1), (3, 2), (5, 7)]

theorem sample_inv : sample.Inv := inv_of_checked (by unfold Checked; decide +kernel)

/-- A state of the default configuration with the largest register values. -/
def big : State := withF State.reset [(1, 2 ^ 256 - 1), (2, 2 ^ 256), (3, 2 ^ 256 + 296)]

theorem big_inv : big.Inv := inv_of_checked (by unfold Checked; decide +kernel)

theorem wit_DecodeOfEncode : (Instr.mvtc 4095 15).wf = true := by decide
theorem wit_EncodeOfDecode : decode 0x30F00FFF = .ok (.lbasis 15 4095) := by decide

theorem wit_MatchAndMaskSelectTheRow :
    ∃ r ∈ opcodeTable, (0x1200F000 : Word) &&& r.maskWord ≠ r.matchWord
      ∧ (0x120F0FFF : Word) &&& r.maskWord = r.matchWord := by decide +kernel

theorem wit_IllegalWordsFail :
    (∀ r ∈ opcodeTable, (0xFFFFFFFF : Word) &&& r.maskWord ≠ r.matchWord)
      ∧ ∀ r ∈ opcodeTable, (0x01312001 : Word) &&& r.maskWord ≠ r.matchWord := by decide +kernel

theorem wit_StepRunsTheDecodedCommand :
    (offered sample (.write 0x00 4 0x01312000)).port = .write 0x00 4 0x01312000 :: [] ∧ decode 0x01312000 = .ok (.madd 3 1 2) := by
  decide

theorem wit_PlacedWordRunsNext :
    decodeTableWord 32 0x01312000 = some (.madd 3 1 2) ∧ ∃ t, exec (.madd 3 1 2) sample = .next t := ⟨by decide, exec_next _ _⟩

theorem wit_NothingHappensUnasked : State.reset.port = [] := rfl

theorem wit_EachTransactionHasOneResponse :
    (∃ t, step (offered sample (.read 0x00 4)) = .next t) ∧ (∃ t, step (offered sample (.read 0x7C 4)) = .next t)
      ∧ (∃ t, step (offered sample (.write 0x80 4 0)) = .next t) ∧ (∃ t, step (offered sample (.write 0x14 4 3)) = .next t)
      ∧ ∃ t, step (offered sample .reset) = .next t := ⟨⟨_, rfl⟩, ⟨_, rfl⟩, ⟨_, rfl⟩, ⟨_, rfl⟩, ⟨_, rfl⟩⟩

theorem wit_ConfigurationIsConstant : ∃ t, step (offered sample .reset) = .next t := ⟨_, rfl⟩

theorem offered_inv {s : State} (h : s.Inv) (m : HostMove) : (offered s m).Inv :=
  State.Inv.congr h rfl rfl rfl rfl rfl h.code_produced h.einfo_clear

theorem wit_StepKeepsTheInvariant :
    (offered sample (.write 0x00 4 0x21000000)).Inv ∧ ∃ t, step (offered sample (.write 0x00 4 0x21000000)) = .next t :=
  ⟨offered_inv sample_inv _, _, rfl⟩

theorem wit_ReachableStatesAreSafe :
    State.Reachable { State.resetFor Config.test257 with port := [] ++ [.write 0x00 4 0x7F000000] } := .offer _ (.reset _)

/-- The words of both ends of each range of readable offsets, on a state whose words differ. -/
def readable : State :=
  { sample with
    CODE := 0x0B
    EINFO := 0x1200000C
    XIN := 9
    XOUT := 4
    INS := 1
    IN := bytes 0x01020304
    OUT := bytes 0x05060708 }

theorem wit_ReadsReturnTheWord :
    (0x04, 0x0000010B#32) ∈ [(0x04, BitVec.ofNat 32 (readable.CODE.toNat + if readable.CODE = 0 then 0 else 2 ^ 8))]
      ∧ (0x0C, 0x0000400C#32) ∈ [(0x0C, BitVec.ofNat 32 (readable.cfg.NMAX + 2 ^ 12 * readable.cfg.P.size
          + if 2 ^ 256 < readable.cfg.P then 2 ^ 22 else 0))]
      ∧ (0x28, 1#32) ∈ [(0x28, BitVec.ofNat 32 readable.INS.toNat)]
      ∧ (0x40, 0#32) ∈ (List.finRange 8).map (fun k => (0x40 + 4 * k.val, BitVec.ofNat 32
          ((readable.IN[4 * k.val]).toNat * 2 ^ 24 + (readable.IN[4 * k.val + 1]).toNat * 2 ^ 16
            + (readable.IN[4 * k.val + 2]).toNat * 2 ^ 8 + (readable.IN[4 * k.val + 3]).toNat)))
      ∧ (0x7C, 0x05060708#32) ∈ (List.finRange 8).map (fun k => (0x60 + 4 * k.val, BitVec.ofNat 32
          ((readable.OUT[4 * k.val]).toNat * 2 ^ 24 + (readable.OUT[4 * k.val + 1]).toNat * 2 ^ 16
            + (readable.OUT[4 * k.val + 2]).toNat * 2 ^ 8 + (readable.OUT[4 * k.val + 3]).toNat))) := by decide +kernel

theorem wit_WritesReplaceTheRegister :
    ∀ c ∈ [(0x14, { sample with T := 5 }), (0x28, { sample with INS := 1 })],
      c ∈ [(0x14, { sample with T := 5 }), (0x18, { sample with N := 5 }), (0x1C, { sample with K := 5 }),
        (0x20, { sample with XIN := 5 }), (0x28, { sample with INS := BitVec.ofBool ((5 : Word).getLsbD 0) })] := by decide +kernel

/-- Boundary values of both lists; no offset of the second falls under the first. -/
theorem wit_RefusedTransactionsChangeNothing :
    (∀ c ∈ [(0x41, 4), (0x04, 2), (0x00, 8), (0x2C, 4), (0x3C, 4), (0x80, 4)],
        c.1 % 4 ≠ 0 ∨ c.2 ≠ 4 ∨ (0x2C ≤ c.1 ∧ c.1 < 0x40) ∨ 0x80 ≤ c.1)
      ∧ (∀ o ∈ [0x04, 0x10, 0x24, 0x60, 0x7C], o ∈ [0x04, 0x08, 0x0C, 0x10, 0x24, 0x60, 0x64, 0x68, 0x6C, 0x70, 0x74, 0x78, 0x7C]
        ∧ ¬ (o % 4 ≠ 0 ∨ (0x2C ≤ o ∧ o < 0x40) ∨ 0x80 ≤ o)) := by decide

theorem wit_FailuresArePrecise :
    ∃ t, Performs sample (.write 0x00 4 0x04430000) [] t ∧ t.CODE ≠ 0 := ⟨after (step (offered sample (.write 0x00 4 0x04430000))), rfl, by decide +kernel⟩

theorem wit_CodeIsNotSticky :
    (∃ t, Performs sample (.read 0x04 4) [] t) ∧ (0x00, 2) ≠ (0x00, 4) ∧ (∃ t, Performs sample (.write 0x00 2 0x7F000000) [] t)
      ∧ (0x04, 4) ≠ (0x00, 4) ∧ (∃ t, Performs sample (.write 0x04 4 0) [] t)
      ∧ (∃ t, Performs sample (.write 0x00 4 0x01312000) [] t ∧ t.CODE = 0)
      ∧ ∃ t, Performs sample (.write 0x00 4 0x04430000) [] t ∧ t.CODE ≠ 0 :=
  ⟨⟨_, rfl⟩, by decide, ⟨_, rfl⟩, by decide, ⟨_, rfl⟩,
    ⟨after (step (offered sample (.write 0x00 4 0x01312000))), rfl, by decide +kernel⟩,
    ⟨after (step (offered sample (.write 0x00 4 0x04430000))), rfl, by decide +kernel⟩⟩

theorem wit_CommandsRaiseOnlyTheirCodes : ∃ t, exec (.minv 4 3) sample = .next t := exec_next _ _

/-- Each kind of state, changed by a command. -/
theorem wit_StateIsWrittenOnlyByItsCommands :
    (after (exec (.minv 4 2) sample)).readF 4 ≠ sample.readF 4 ∧ (after (exec (.mvtc 11 1) sample)).COEF ≠ sample.COEF
      ∧ (after (exec (.setx 0) sample)).SX ≠ sample.SX ∧ (after (exec .split sample)).SY ≠ sample.SY
      ∧ (after (exec (.stf 1) sample)).OUT ≠ sample.OUT ∧ (after (exec (.getx 2) sample)).XOUT ≠ sample.XOUT
      ∧ (after (exec .zero sample)).T ≠ sample.T := by decide +kernel

theorem wit_CoefIsHidden :
    (∀ w i, HostMove.read 0x04 4 = .write 0x00 4 w → decode w = .ok i → i ≠ .split ∧ ∀ d, i ≠ .peval d)
      ∧ ∀ w i, HostMove.write 0x00 4 0x12000000 = .write 0x00 4 w → decode w = .ok i → i ≠ .split ∧ ∀ d, i ≠ .peval d := by
  refine ⟨fun w i h => (by cases h), fun w i h hd => ?_⟩
  have hw : w = 0x12000000 := by simpa using h.symm
  have : decode 0x12000000 = .ok (.mvtc 0 0) := by decide
  rw [hw, this] at hd
  cases hd
  simp

theorem wit_MaddWritesTheSum : sample.Inv ∧ sample.cfg.P ≤ sample.readF 1 + sample.readF 2 := ⟨sample_inv, by decide +kernel⟩
theorem wit_MsubWritesTheDifference : sample.Inv ∧ sample.readF 2 < sample.readF 1 ∧ sample.readF 0 < sample.readF 1 :=
  ⟨sample_inv, by decide +kernel⟩
theorem wit_MmulWritesTheProduct : sample.Inv ∧ sample.readF 1 = 12 ∧ sample.readF 0 = 0 := ⟨sample_inv, by decide +kernel⟩
theorem wit_MinvWritesTheInverse : sample.readF 0 = 0 ∧ sample.Inv ∧ sample.readF 1 ≠ 0 := ⟨by decide +kernel, sample_inv, by decide +kernel⟩
theorem wit_MdivWritesTheQuotient : sample.readF 0 = 0 ∧ sample.Inv ∧ sample.readF 1 ≠ 0 := ⟨by decide +kernel, sample_inv, by decide +kernel⟩

theorem wit_StfWritesBigEndianBytes :
    2 ^ 256 ≤ big.readF 2 ∧ (sample.Inv ∧ sample.cfg.P ≤ 2 ^ 256) ∧ big.readF 1 < 2 ^ 256 :=
  ⟨by decide +kernel, ⟨sample_inv, by decide +kernel⟩, by decide +kernel⟩

theorem wit_BytesRoundTrip : 2 ^ 256 < big.cfg.P ∧ big.INS = 0 ∧ ∃ t, exec (.ldf 0) big = .next t :=
  ⟨by decide +kernel, by decide +kernel, exec_next _ _⟩

theorem wit_FieldElementRoundTrip : big.Inv ∧ big.readF 1 < 2 ^ 256 ∧ ∃ t, exec (.stf 1) big = .next t :=
  ⟨big_inv, by decide +kernel, exec_next _ _⟩

theorem wit_MvtcWritesTheEntry : 4095 < 4096 ∧ sample.cfg.NMAX ≤ 12 ∧ sample.Inv ∧ 11 < sample.cfg.NMAX ∧ 0 < sample.cfg.NMAX :=
  ⟨by decide, by decide, sample_inv, by decide, by decide⟩
theorem wit_MvtyWritesTheEntry : 4095 < 4096 ∧ big.cfg.NMAX ≤ 255 ∧ big.Inv ∧ 254 < big.cfg.NMAX ∧ 0 < big.cfg.NMAX :=
  ⟨by decide, by decide +kernel, big_inv, by decide +kernel, by decide +kernel⟩
theorem wit_MvfyReadsTheEntry : 4095 < 4096 ∧ sample.cfg.NMAX ≤ 12 ∧ 11 < sample.cfg.NMAX := ⟨by decide, by decide, by decide⟩
theorem wit_SetxWritesTheEntry : 4095 < 4096 ∧ sample.cfg.NMAX ≤ 12 ∧ sample.Inv ∧ 11 < sample.cfg.NMAX :=
  ⟨by decide, by decide, sample_inv, by decide⟩
theorem wit_GetxReadsTheEntry : 4095 < 4096 ∧ sample.cfg.NMAX ≤ 12 ∧ 11 < sample.cfg.NMAX := ⟨by decide, by decide, by decide⟩
theorem wit_IndexOutOfRangeFails : sample.cfg.NMAX ≤ 12 ∧ big.cfg.NMAX ≤ 255 := ⟨by decide, by decide +kernel⟩

/-- T = 1; T = 13 = NMAX + 1; T = 2 with `XIN` = P; T = NMAX with `XIN` = 1. -/
theorem wit_PevalWritesThePolynomialValue :
    (withPoly t13 1 0).T.toNat < 2
      ∧ (2 ≤ (withPoly t13 13 0).T.toNat ∧ (withPoly t13 13 0).cfg.NMAX < (withPoly t13 13 0).T.toNat)
      ∧ (2 ≤ (withPoly t13 2 0).T.toNat ∧ (withPoly t13 2 0).T.toNat ≤ t13.cfg.NMAX ∧ (13 : Word).toNat % t13.cfg.P = 0)
      ∧ (2 ≤ (withPoly t13 12 0).T.toNat ∧ (withPoly t13 12 0).T.toNat ≤ t13.cfg.NMAX ∧ (1 : Word).toNat % t13.cfg.P ≠ 0) := by
  decide +kernel

/-- T = 1; N = T − 1; N = NMAX + 1; N = T = NMAX and N = T = 2, on states that meet the invariant. -/
theorem wit_SplitWritesTheShares :
    (withPoly t13 1 5).T.toNat < 2
      ∧ (2 ≤ (withPoly t13 2 1).T.toNat ∧ (withPoly t13 2 1).N.toNat < (withPoly t13 2 1).T.toNat)
      ∧ (2 ≤ (withPoly t13 13 13).T.toNat ∧ (withPoly t13 13 13).T.toNat ≤ (withPoly t13 13 13).N.toNat
          ∧ (withPoly t13 13 13).cfg.NMAX < (withPoly t13 13 13).N.toNat)
      ∧ (withPoly t13 12 12).Inv ∧ (withPoly t13 2 2).Inv
      ∧ (2 ≤ (withPoly t13 12 12).T.toNat ∧ (withPoly t13 12 12).T.toNat ≤ (withPoly t13 12 12).N.toNat
          ∧ (withPoly t13 12 12).N.toNat ≤ (withPoly t13 12 12).cfg.NMAX) := by
  refine ⟨by decide +kernel, by decide +kernel, by decide +kernel, inv_of_checked ?_, inv_of_checked ?_, by decide +kernel⟩
  · unfold Checked; decide +kernel
  · unfold Checked; decide +kernel

/-- A table of the first `K` shares of a list of x-coordinates. -/
def table (K : Word) (l : List Word) : State := withShares t13 K (l.map fun x => (x, 1))

/-- K = 1; K = 13 = NMAX + 1; index K; a reserved share at 1; an equal pair (1, 3); shares 1 and 2 that collide; a table that passes. -/
theorem wit_LbasisWritesTheBasisValue :
    (table 1 [1]).K.toNat < 2
      ∧ (2 ≤ (table 13 [1]).K.toNat ∧ (table 13 [1]).cfg.NMAX < (table 13 [1]).K.toNat)
      ∧ (2 ≤ (table 2 [1, 2]).K.toNat ∧ (table 2 [1, 2]).K.toNat ≤ t13.cfg.NMAX ∧ (table 2 [1, 2]).K.toNat ≤ 2)
      ∧ (2 ≤ (table 3 [1, 26, 1]).K.toNat ∧ (table 3 [1, 26, 1]).K.toNat ≤ t13.cfg.NMAX ∧ 2 < (table 3 [1, 26, 1]).K.toNat
          ∧ Reserved (table 3 [1, 26, 1]) 1 ∧ ∀ j < 1, ¬ Reserved (table 3 [1, 26, 1]) j)
      ∧ ((∀ j < (table 5 [1, 2, 3, 2, 1]).K.toNat, ¬ Reserved (table 5 [1, 2, 3, 2, 1]) j) ∧ SameX (table 5 [1, 2, 3, 2, 1]) 1 3
          ∧ (∀ j < 3, ∀ k < j, ¬ SameX (table 5 [1, 2, 3, 2, 1]) k j) ∧ ∀ k < 1, ¬ SameX (table 5 [1, 2, 3, 2, 1]) k 3)
      ∧ (TableOK (table 3 [1, 3, 16]) ∧ 2 < (table 3 [1, 3, 16]).K.toNat ∧ Collides (table 3 [1, 3, 16]) 2)
      ∧ (TableOK (table 3 [1, 3, 16]) ∧ ¬ Collides (table 3 [1, 3, 16]) 0)
      ∧ (TableOK (table 2 [1, 2]) ∧ 1 < (table 2 [1, 2]).K.toNat ∧ ¬ Collides (table 2 [1, 2]) 1) := by
  unfold TableOK Collides SameX Reserved
  refine ⟨?_, ?_, ?_, ?_, ?_, ?_, ?_, ?_⟩ <;> decide +kernel

/-- As for `LBASIS`; the first share that collides is 1; a table of K = NMAX shares that passes. -/
theorem wit_CombineWritesTheWeightedSum :
    (table 0 []).K.toNat < 2
      ∧ (2 ≤ (table 13 [1]).K.toNat ∧ (table 13 [1]).cfg.NMAX < (table 13 [1]).K.toNat)
      ∧ (Reserved (table 2 [13, 1]) 0 ∧ 0 < (table 2 [13, 1]).K.toNat)
      ∧ ((∀ j < (table 2 [2, 2]).K.toNat, ¬ Reserved (table 2 [2, 2]) j) ∧ SameX (table 2 [2, 2]) 0 1
          ∧ ∀ j < 1, ∀ k < j, ¬ SameX (table 2 [2, 2]) k j)
      ∧ (TableOK (table 3 [1, 3, 16]) ∧ Collides (table 3 [1, 3, 16]) 1 ∧ ∀ j < 1, ¬ Collides (table 3 [1, 3, 16]) j)
      ∧ (TableOK (table 12 [1, 2, 3, 4, 5, 6, 7, 8, 9, 10, 11, 12])
          ∧ ∀ i < (table 12 [1, 2, 3, 4, 5, 6, 7, 8, 9, 10, 11, 12]).K.toNat, ¬ Collides (table 12 [1, 2, 3, 4, 5, 6, 7, 8, 9, 10, 11, 12]) i) := by
  unfold TableOK Collides SameX Reserved; decide +kernel

theorem wit_NoZeroDenominatorForLargeP :
    2 ^ 32 ≤ big.cfg.P ∧ (∃ t, exec (.combine 0) big = .next t) ∧ ∃ t, exec (.lbasis 0 0) big = .next t :=
  ⟨by decide +kernel, exec_next _ _, exec_next _ _⟩

theorem wit_BasisValuesSumToOne : TableOK (table 2 [1, 2]) ∧ ∀ i < (table 2 [1, 2]).K.toNat, ¬ Collides (table 2 [1, 2]) i := by
  unfold TableOK Collides SameX Reserved; decide +kernel

/-- The shares 1, 3, 5 of 2 + 5x + 7x² over GF(13). -/
theorem wit_CombineInterpolatesAtZero :
    2 ≤ sample.K.toNat ∧ sample.K.toNat ≤ sample.cfg.NMAX ∧ (∀ i < sample.K.toNat, ¬ Reserved sample i)
      ∧ (∀ i < sample.K.toNat, ¬ Collides sample i)
      ∧ (Polynomial.C 2 + Polynomial.C 5 * Polynomial.X + Polynomial.C 7 * Polynomial.X ^ 2 : Polynomial (ZMod sample.cfg.P)).degree
          < (sample.K.toNat : WithBot Nat)
      ∧ ∀ i < sample.K.toNat, ((sample.SY.read i : Nat) : ZMod sample.cfg.P)
          = (Polynomial.C 2 + Polynomial.C 5 * Polynomial.X + Polynomial.C 7 * Polynomial.X ^ 2 : Polynomial (ZMod sample.cfg.P)).eval
              (xField sample i) := by
  refine ⟨by decide, by decide, by unfold Reserved; decide +kernel, by unfold Collides; decide +kernel, ?_, ?_⟩
  · rw [show sample.K.toNat = 3 from by decide]
    refine lt_of_le_of_lt (b := ((2 : Nat) : WithBot Nat)) ?_ (by decide)
    compute_degree!
  · rw [show sample.K.toNat = 3 from by decide]
    simp only [Polynomial.eval_add, Polynomial.eval_mul, Polynomial.eval_C, Polynomial.eval_X, Polynomial.eval_pow]
    have key : ∀ i < 3, ((sample.SY.read i : Nat) : ZMod 13)
        = 2 + 5 * ((sample.SX.read i).toNat : ZMod 13) + 7 * ((sample.SX.read i).toNat : ZMod 13) ^ 2 := by decide +kernel
    exact key

/-- Shares 5, 3 and 1 of a split with T = 3 and N = 5, in that order. -/
theorem wit_SharesRecoverTheSecret :
    (withPoly t13 3 5).Inv ∧ (∃ t, exec .split (withPoly t13 3 5) = .next t ∧ t.CODE = 0
      ∧ ∀ k < 3, (withShares t13 3 [(5, 7), (3, 2), (1, 1)]).SX.read k = t.SX.read (4 - 2 * k)
        ∧ (withShares t13 3 [(5, 7), (3, 2), (1, 1)]).SY.read k = t.SY.read (4 - 2 * k))
      ∧ (withShares t13 3 [(5, 7), (3, 2), (1, 1)]).cfg = (withPoly t13 3 5).cfg
      ∧ (withPoly t13 3 5).T.toNat ≤ (withShares t13 3 [(5, 7), (3, 2), (1, 1)]).K.toNat
      ∧ (withShares t13 3 [(5, 7), (3, 2), (1, 1)]).K.toNat ≤ (withPoly t13 3 5).N.toNat
      ∧ (∀ k < 3, 4 - 2 * k < 5) ∧ ∀ k < 3, ∀ l < 3, 4 - 2 * k = 4 - 2 * l → k = l := by
  refine ⟨inv_of_checked (by unfold Checked; decide +kernel), ⟨after (exec .split (withPoly t13 3 5)), ?_, ?_, ?_⟩, rfl, ?_, ?_, ?_, ?_⟩
  · obtain ⟨t, ht⟩ := exec_next .split (withPoly t13 3 5)
    rw [ht]; rfl
  all_goals decide +kernel

/-- Two shares and the same two shares exchanged. -/
theorem wit_ShareOrderIsIrrelevant :
    (∃ t, exec (.combine 0) (withShares t13 2 [(1, 1), (3, 2)]) = .next t ∧ t.CODE = 0)
      ∧ (withShares t13 2 [(3, 2), (1, 1)]).cfg = (withShares t13 2 [(1, 1), (3, 2)]).cfg
      ∧ (withShares t13 2 [(3, 2), (1, 1)]).K = (withShares t13 2 [(1, 1), (3, 2)]).K
      ∧ (∀ k, k < 2 ↔ Equiv.swap 0 1 k < 2)
      ∧ ∀ k < 2, (withShares t13 2 [(3, 2), (1, 1)]).SX.read k = (withShares t13 2 [(1, 1), (3, 2)]).SX.read (Equiv.swap 0 1 k)
          ∧ (withShares t13 2 [(3, 2), (1, 1)]).SY.read k = (withShares t13 2 [(1, 1), (3, 2)]).SY.read (Equiv.swap 0 1 k) := by
  refine ⟨⟨after (exec (.combine 0) (withShares t13 2 [(1, 1), (3, 2)])), ?_, by decide +kernel⟩, rfl, rfl, fun k => ?_, by decide +kernel⟩
  · obtain ⟨t, ht⟩ := exec_next (.combine 0) (withShares t13 2 [(1, 1), (3, 2)])
    rw [ht]; rfl
  · rw [Equiv.swap_apply_def]; split_ifs <;> omega

end Sys2Proof.Tests
end

section
/-! PROOFS. A reset zeroes every piece of state (10_state.md R41). -/

namespace Sys2Proof.Machine

open Sys2Proof.Claims

/-- A reset move that is accepted clears the state it is accepted in; the moves behind it stay waiting. -/
theorem performs_reset (s : State) (rest : List HostMove) :
    Performs s .reset rest (State.clear { s with port := rest }) :=
  (step_move rfl).trans (perform_reset _)

/-- Every byte of IN and OUT is zero in a cleared state. -/
theorem State.clear_bytes (s : State) (i : Nat) (hi : i < 32) : s.clear.IN[i] = 0 ∧ s.clear.OUT[i] = 0 := by
  constructor <;> simp

/-- Settles O18: the state after the move is the cleared one, whose fields the `clear` lemmas give. -/
theorem resetClearsEverything : Obligations.ResetClearsEverything := by
  unfold Obligations.ResetClearsEverything
  intro s rest
  refine ⟨State.clear { s with port := rest }, performs_reset s rest, State.clear_cfg _, State.readF_clear _,
    ?coef, ?sx, ?sy, ?words⟩
  case coef | sx | sy => simp
  case words => exact ⟨rfl, rfl, rfl, rfl, rfl, rfl, State.clear_bytes _, rfl, rfl⟩

end Sys2Proof.Machine
end

section
/-! PROOFS. The host port: what a read returns, what a register write replaces, and what is refused (20_memory.md R62 to R66). -/

namespace Sys2Proof.Machine

open Sys2Proof.Claims

/-! ### The moves that wait do not enter a transaction -/

theorem State.wordValue_port (s : State) (rest : List HostMove) (w : PortWord) :
    State.wordValue { s with port := rest } w = s.wordValue w := by
  cases w <;> rfl

theorem State.setWord_port (s : State) (rest : List HostMove) (w : PortWord) (v : Word) :
    State.setWord { s with port := rest } w v = (s.setWord w v).map fun t => { t with port := rest } := by
  cases w <;> rfl

/-! ### One transaction, by what the access names -/

/-- A read of a word that holds a value returns it (20_memory.md R62). -/
theorem performs_read_value {s : State} {w : PortWord} {v : Word} (hv : s.wordValue w = some v) (rest : List HostMove) :
    Performs s (.read w.offset 4) rest { s with port := rest, responses := s.responses ++ [.value v] } :=
  (step_move rfl).trans (perform_read_ok ((s.wordValue_port rest w).trans hv))

/-- A read that names no word with a value is refused (20_memory.md R65). -/
theorem performs_read_refused {s : State} {off width : Nat} (h : ∀ w, portWordAt off width = some w → s.wordValue w = none)
    (rest : List HostMove) :
    Performs s (.read off width) rest { s with port := rest, responses := s.responses ++ [.error] } := by
  refine (step_move rfl).trans (perform_read_error (Option.bind_eq_none_iff.2 fun w hw => ?_))
  exact (s.wordValue_port rest w).trans (h w hw)

/-- A write to a staging register makes the register's new state (20_memory.md R63). -/
theorem performs_write_register {s t : State} {w : PortWord} {v : Word} (ht : s.setWord w v = some t) (rest : List HostMove) :
    Performs s (.write w.offset 4 v) rest { t with port := rest, responses := s.responses ++ [.okay] } := by
  have hport : State.setWord { s with port := rest } w v = some { t with port := rest } := by
    rw [State.setWord_port, ht, Option.map_some]
  have hresp : t.responses = s.responses := (setWord_keeps ht).2.1
  rw [← hresp]
  exact (step_move rfl).trans (perform_write_ok hport)

/-- A write to a read-only word is refused (20_memory.md R65 item 4). -/
theorem performs_write_readOnly {w : PortWord} (hw : w.access = .RO) (s : State) (rest : List HostMove) (v : Word) :
    Performs s (.write w.offset 4 v) rest { s with port := rest, responses := s.responses ++ [.error] } :=
  (step_move rfl).trans (perform_write_readOnly hw v)

/-- A write that names no word is refused (20_memory.md R65 items 1 to 3). -/
theorem performs_write_unnamed {off width : Nat} (h : portWordAt off width = none) (s : State) (rest : List HostMove) (v : Word) :
    Performs s (.write off width v) rest { s with port := rest, responses := s.responses ++ [.error] } :=
  (step_move rfl).trans (perform_write_error h v)

/-! ### The words' values and the bytes of a word -/

/-- A word of a byte string as a number, its first byte the highest (20_memory.md R66). -/
theorem wordOfBytes_eq (B : Bytes32) (k : Fin 8) : wordOfBytes B k = BitVec.ofNat 32
    ((B[4 * k.val]).toNat * 2 ^ 24 + (B[4 * k.val + 1]).toNat * 2 ^ 16 + (B[4 * k.val + 2]).toNat * 2 ^ 8 + (B[4 * k.val + 3]).toNat) := by
  rw [← wordOfBytes_toNat, BitVec.ofNat_toNat, BitVec.setWidth_eq]

/-- The bytes of the word that was replaced are the bytes of the value written. -/
theorem setWordOfBytes_bytes (B : Bytes32) (k : Fin 8) (v : Word) :
    (setWordOfBytes B k v)[4 * k.val] = v.extractLsb' 24 8 ∧ (setWordOfBytes B k v)[4 * k.val + 1] = v.extractLsb' 16 8
      ∧ (setWordOfBytes B k v)[4 * k.val + 2] = v.extractLsb' 8 8 ∧ (setWordOfBytes B k v)[4 * k.val + 3] = v.extractLsb' 0 8 := by
  simp [setWordOfBytes]

/-- The bytes of the other words stay. -/
theorem setWordOfBytes_other (B : Bytes32) (k : Fin 8) (v : Word) (j : Nat) (hj : j < 32) (h : j / 4 ≠ k.val) :
    (setWordOfBytes B k v)[j] = B[j] := by
  have h0 : 4 * k.val ≠ j := by omega
  have h1 : 4 * k.val + 1 ≠ j := by omega
  have h2 : 4 * k.val + 2 ≠ j := by omega
  have h3 : 4 * k.val + 3 ≠ j := by omega
  simp [setWordOfBytes, h0, h1, h2, h3]

/-- Bit 0 of a word, as the field the model takes out and as a Boolean. -/
theorem extractLsb'_zero_one (v : Word) : v.extractLsb' 0 1 = BitVec.ofBool (v.getLsbD 0) := by
  ext i hi
  obtain rfl : i = 0 := by omega
  simp

/-! ### Which accesses name no word -/

/-- The map's offsets are aligned, leave 0x2C to 0x3F free and end at 0x80 (20_memory.md R64). -/
theorem PortWord.offset_bounds (w : PortWord) :
    w.offset % 4 = 0 ∧ (w.offset < 0x2C ∨ 0x40 ≤ w.offset) ∧ w.offset < 0x80 := by
  cases w with
  | inW k | outW k => simp only [PortWord.offset]; omega
  | _ => decide

/-- An access that is misaligned, not 32 bits wide or at an unmapped offset names no word. -/
theorem portWordAt_eq_none {off width : Nat} (h : off % 4 ≠ 0 ∨ width ≠ 4 ∨ (0x2C ≤ off ∧ off < 0x40) ∨ 0x80 ≤ off) :
    portWordAt off width = none := by
  refine Option.eq_none_iff_forall_ne_some.2 fun w hw => ?_
  obtain ⟨rfl, rfl⟩ := portWordAt_eq_some.1 hw
  have := w.offset_bounds
  omega

/-- The offsets of the read-only words. -/
theorem readOnly_offsets :
    ∀ off ∈ [0x04, 0x08, 0x0C, 0x10, 0x24, 0x60, 0x64, 0x68, 0x6C, 0x70, 0x74, 0x78, 0x7C],
      ∃ w ∈ portWords, w.access = .RO ∧ w.offset = off := by decide

/-! ### The statements -/

/-- Settles O15: each entry of the list is the offset and the value of one word of the map. -/
theorem readsReturnTheWord : Obligations.ReadsReturnTheWord := by
  unfold Obligations.ReadsReturnTheWord
  intro s rest off v hmem
  obtain ⟨w, rfl, hv⟩ : ∃ w : PortWord, w.offset = off ∧ s.wordValue w = some v := by
    simp only [List.mem_append, List.mem_map, List.mem_cons, List.not_mem_nil, or_false, Prod.mk.injEq] at hmem
    obtain ((⟨rfl, rfl⟩ | ⟨rfl, rfl⟩ | ⟨rfl, rfl⟩ | ⟨rfl, rfl⟩ | ⟨rfl, rfl⟩ | ⟨rfl, rfl⟩ | ⟨rfl, rfl⟩ | ⟨rfl, rfl⟩ | ⟨rfl, rfl⟩
      | ⟨rfl, rfl⟩) | ⟨k, -, rfl, rfl⟩) | ⟨k, -, rfl, rfl⟩ := hmem
    · exact ⟨.status, rfl, congrArg some s.status_eq⟩
    · exact ⟨.einfo, rfl, rfl⟩
    · exact ⟨.cap, rfl, congrArg some (capWord_eq s.cfg)⟩
    · exact ⟨.id, rfl, rfl⟩
    · exact ⟨.cfgT, rfl, rfl⟩
    · exact ⟨.cfgN, rfl, rfl⟩
    · exact ⟨.cfgK, rfl, rfl⟩
    · exact ⟨.xin, rfl, rfl⟩
    · exact ⟨.xout, rfl, rfl⟩
    · exact ⟨.ins, rfl, congrArg some (BitVec.ofNat_toNat 32 s.INS).symm⟩
    · exact ⟨.inW k, rfl, congrArg some (wordOfBytes_eq s.IN k)⟩
    · exact ⟨.outW k, rfl, congrArg some (wordOfBytes_eq s.OUT k)⟩
  exact performs_read_value hv rest

/-- Settles O16: a write makes the state `setWord` answers; the bytes of IN by the lemmas on one replaced word. -/
theorem writesReplaceTheRegister : Obligations.WritesReplaceTheRegister := by
  unfold Obligations.WritesReplaceTheRegister
  intro s rest v
  refine ⟨fun off t hmem => ?registers, fun k => ?bytes⟩
  case registers =>
    simp only [List.mem_cons, List.not_mem_nil, or_false, Prod.mk.injEq] at hmem
    obtain ⟨rfl, rfl⟩ | ⟨rfl, rfl⟩ | ⟨rfl, rfl⟩ | ⟨rfl, rfl⟩ | ⟨rfl, rfl⟩ := hmem
    · exact performs_write_register (w := .cfgT) rfl rest
    · exact performs_write_register (w := .cfgN) rfl rest
    · exact performs_write_register (w := .cfgK) rfl rest
    · exact performs_write_register (w := .xin) rfl rest
    · rw [← extractLsb'_zero_one]
      exact performs_write_register (w := .ins) rfl rest
  case bytes =>
    obtain ⟨h0, h1, h2, h3⟩ := setWordOfBytes_bytes s.IN k v
    exact ⟨_, performs_write_register (w := .inW k) rfl rest, rfl, h0, h1, h2, h3, setWordOfBytes_other s.IN k v⟩

/-- Settles O17: the access names no word, or it names a word that the transaction may not touch. -/
theorem refusedTransactionsChangeNothing : Obligations.RefusedTransactionsChangeNothing := by
  unfold Obligations.RefusedTransactionsChangeNothing
  intro s rest off width v
  refine ⟨fun h => ?unnamed, fun h => ?readOnly, ?readCmd⟩
  case unnamed =>
    have hnone := portWordAt_eq_none h
    exact ⟨performs_read_refused (by simp [hnone]) rest, performs_write_unnamed hnone s rest v⟩
  case readOnly =>
    obtain ⟨w, -, hw, rfl⟩ := readOnly_offsets off h
    exact performs_write_readOnly hw s rest v
  case readCmd =>
    refine performs_read_refused (fun w hw => wordValue_eq_none.2 ?_) rest
    exact (Option.some.inj ((portWordAt_offset .cmd).symm.trans hw)).symm

end Sys2Proof.Machine
end

section
/-! PROOFS. The opcode map: its columns match and mask select the decoded row (30_encoding.md R95), and a word that matches no row is
illegal (R96). -/

namespace Sys2Proof.Machine

open Sys2Proof.Claims

/-! ### The row that is selected -/

/-- The command a row builds has the row's opcode. -/
theorem opcode_make : ∀ r ∈ opcodeTable, ∀ f : Fields, (r.make f).opcode = r.opc := by
  simp [opcodeTable, Instr.opcode]

/-- Two rows whose commands agree on some fields are one row. -/
theorem row_eq_of_make_eq {r q : Row} (hr : r ∈ opcodeTable) (hq : q ∈ opcodeTable) {f : Fields} (h : r.make f = q.make f) : r = q :=
  row_inj r hr q hq (by rw [← opcode_make r hr f, h, opcode_make q hq f])

/-- The columns match and mask of a row select the words that decode to the row's command (30_encoding.md R95). -/
theorem selects_iff_decode {r : Row} (hr : r ∈ opcodeTable) (w : Word) :
    w &&& r.maskWord = r.matchWord ↔ decode w = .ok (r.make (fieldsOf w)) := by
  constructor
  · intro hsel
    obtain ⟨hopc, hzero⟩ := and_mask.1 hsel
    exact decode_of_row hr hopc hzero
  · intro hdec
    obtain ⟨q, hq, hopc, hzero, hmake⟩ := decode_ok hdec
    obtain rfl : r = q := row_eq_of_make_eq hr hq hmake
    exact and_mask.2 ⟨hopc, hzero⟩

/-- No word selects two rows. -/
theorem row_eq_of_selects {w : Word} {r q : Row} (hr : r ∈ opcodeTable) (hq : q ∈ opcodeTable)
    (hselr : w &&& r.maskWord = r.matchWord) (hselq : w &&& q.maskWord = q.matchWord) : r = q :=
  row_inj r hr q hq ((and_mask.1 hselr).1.trans (and_mask.1 hselq).1.symm)

/-! ### An illegal word written to CMD -/

/-- The EINFO of a failure without indices: the opcode in the top byte and zeros (60_exceptions.md R246). -/
theorem einfoWord_zero_zero (opc : Byte) : einfoWord opc 0 0 = opc.setWidth 32 <<< 24 := by
  apply BitVec.eq_of_toNat_eq
  have := opc.isLt
  rw [einfoWord_toNat, BitVec.toNat_shiftLeft, BitVec.toNat_setWidth, Nat.shiftLeft_eq]
  omega

/-- The EINFO of an illegal word is the word's own top byte and zeros. -/
theorem einfoWord_fieldsOf (w : Word) : einfoWord (fieldsOf w).opc 0 0 = w &&& 0xFF000000 :=
  (einfoWord_zero_zero _).trans (and_opc.2 rfl).symm

/-- A word that does not decode, written to `CMD`, fails with `IllegalCommand` and is answered `OKAY` (30_encoding.md R96). -/
theorem performs_illegal {w : Word} {e : DecodeError} (he : decode w = .error e) (s : State) (rest : List HostMove) :
    Performs s (.write PortWord.cmd.offset 4 w) rest
      { s with port := rest, CODE := 0x0C, EINFO := w &&& 0xFF000000, responses := s.responses ++ [.okay] } := by
  refine (step_move rfl).trans ?_
  rw [perform_write_cmd, issueCommand_error he, ← einfoWord_fieldsOf]
  rfl

/-! ### The statements -/

/-- Settles O4: both sides of a selection say that the row has the word's opcode and that its must-be-zero fields are zero; opcodes
of different rows differ. -/
theorem matchAndMaskSelectTheRow : Obligations.MatchAndMaskSelectTheRow := by
  unfold Obligations.MatchAndMaskSelectTheRow
  refine ⟨?columns, fun w r hr => selects_iff_decode hr w, fun w r q => row_eq_of_selects⟩
  case columns => rfl

/-- Settles O5: the word does not decode, so the step that takes it fails it. -/
theorem illegalWordsFail : Obligations.IllegalWordsFail := by
  unfold Obligations.IllegalWordsFail
  intro s w rest hnone
  obtain ⟨e, he⟩ := decode_illegal hnone
  exact ⟨⟨e, he⟩, performs_illegal he s rest⟩

end Sys2Proof.Machine
end

section
/-! PROOFS. The field commands MADD, MSUB, MMUL, MINV, MDIV (40_field_arithmetic.md R120 to R134): the word of each, what it writes and
when it fails, and that the value it writes is the field's sum, difference, product, inverse and quotient. -/

namespace Sys2Proof.Machine

open Sys2Proof.Claims

/-! ### The word of a command -/

/-- A well-formed command's word decodes to the command. -/
theorem decode_encode {i : Instr} (h : i.wf = true) : decode (encode i) = .ok i := by
  obtain ⟨r, hr, hopc, hzero, hmake⟩ := row_of_instr i
  have hfields := fieldsOf_encode i h
  have hdec : decode (encode i) = .ok (r.make (fieldsOf (encode i))) :=
    decode_of_row hr (by rw [hfields, Instr.fields_opc, hopc]) (by rw [hfields]; exact hzero)
  rw [hdec, hfields, hmake]

/-- A well-formed command is encoded by its own opcode and fields (30_encoding.md R91). -/
theorem encodedAs_fields {i : Instr} (h : i.wf = true) :
    EncodedAs i i.opcode i.fields.fd i.fields.fa i.fields.fb i.fields.idx := by
  have hdec := decode_encode h
  rwa [encode, packFields, Instr.fields_opc] at hdec

/-! ### A command's completion and its failure, as the claims say them -/

/-- A command that fails no test and whose one write is `F[d] <- v` writes that field and nothing else. -/
theorem writesField_of_effect {i : Instr} {s : State} {d : Reg} {v : Nat} (hpass : failureOf i s = none)
    (heffect : effectOf i s = s.writeF d v) : WritesField i s d v :=
  ⟨(s.writeF d v).succeed, heffect ▸ exec_of_none hpass, s.readF_writeF_same d v,
    fun r hr => (s.readF_writeF d r v).trans (if_neg hr), rfl⟩

/-- A command with a failing test reports it and changes nothing else (60_exceptions.md R245, R246). -/
theorem failsWith_of_failure {i : Instr} {s : State} {f : Failure} (h : failureOf i s = some f) :
    FailsWith i s i.opcode f.code.number f.a f.b :=
  ⟨s.fail i.opcode f, exec_of_some h, rfl, einfoWord_opc _ _ _, einfoWord_b _ _ _, einfoWord_a _ _ _, rfl⟩

/-! ### The field functions on field elements -/

/-- The sum of field elements needs at most one subtraction of P (40_field_arithmetic.md R121). -/
theorem fadd_eq_ite {P a b : Nat} (ha : a < P) (hb : b < P) : fadd P a b = if P ≤ a + b then a + b - P else a + b := by
  rw [fadd, Nat.add_mod_eq_ite, Nat.mod_eq_of_lt ha, Nat.mod_eq_of_lt hb]

/-- The difference of field elements needs at most one addition of P (40_field_arithmetic.md R122). -/
theorem fsub_eq_ite {P a b : Nat} (ha : a < P) (hb : b < P) : fsub P a b = if b ≤ a then a - b else a + P - b := by
  rw [fsub]
  split
  · rw [Int.emod_eq_of_lt (by omega) (by omega)]
    omega
  · rw [← Int.add_emod_right, Int.emod_eq_of_lt (by omega) (by omega)]
    omega

/-- GF(P) has no zero divisors (40_field_arithmetic.md R128 law 4). -/
theorem fmul_eq_zero {P a b : Nat} (hP : P.Prime) (ha : a < P) (hb : b < P) : fmul P a b = 0 ↔ a = 0 ∨ b = 0 := by
  have dvd_iff : ∀ {c : Nat}, c < P → (P ∣ c ↔ c = 0) := fun hc =>
    ⟨fun h => Nat.eq_zero_of_dvd_of_lt h hc, fun h => h ▸ dvd_zero P⟩
  rw [fmul, ← Nat.dvd_iff_mod_eq_zero, hP.dvd_mul, dvd_iff ha, dvd_iff hb]

/-- A factor that is not 0 cancels from a product of field elements. -/
theorem fmul_right_cancel {P a v w : Nat} (hP : P.Prime) (ha : a < P) (ha0 : a ≠ 0) (hv : v < P) (hw : w < P)
    (h : fmul P v a = fmul P w a) : v = w := by
  have hcoprime : Nat.gcd P a = 1 := Nat.coprime_of_lt_prime ha0 ha hP
  exact Nat.ModEq.eq_of_lt_of_lt (Nat.ModEq.cancel_right_of_coprime hcoprime h) hv hw

section
variable {cfg : Config} {a b : Nat} (hb : b < cfg.P) (hb0 : b ≠ 0)
include hb hb0

/-- A field element that is not 0 is not 0 in ZMod P. -/
theorem cast_ne_zero : (b : ZMod cfg.P) ≠ 0 := fun h =>
  hb0 (eq_of_cast_eq hb cfg.ok.prime.pos (h.trans Nat.cast_zero.symm))

/-- A quotient times its divisor is the dividend (40_field_arithmetic.md R125). -/
theorem fmul_fdiv (ha : a < cfg.P) : fmul cfg.P (fdiv cfg.P a b) b = a := by
  refine eq_of_cast_eq (fmul_lt cfg.ok.prime.pos _ _) ha ?_
  rw [cast_fmul, fdiv, cast_fmul, mul_assoc, cast_finv_mul (cast_ne_zero hb hb0), mul_one]

/-- An inverse times its element is 1 (40_field_arithmetic.md R128 law 2). -/
theorem fmul_finv : fmul cfg.P (finv cfg.P b) b = 1 := by
  refine eq_of_cast_eq (fmul_lt cfg.ok.prime.pos _ _) cfg.ok.prime.one_lt ?_
  rw [cast_fmul, cast_finv_mul (cast_ne_zero hb hb0), Nat.cast_one]

/-- An inverse is not 0. -/
theorem finv_ne_zero : finv cfg.P b ≠ 0 := fun h =>
  absurd (fmul_finv hb hb0) (by simp [h, fmul])

end

/-- The quotient by the formula of the inverse (40_field_arithmetic.md R124, R125). -/
theorem fdiv_eq (cfg : Config) (a b : Nat) : fdiv cfg.P a b = a * (b ^ (cfg.P - 2) % cfg.P) % cfg.P := by
  rw [fdiv, finv_eq, fmul]

/-! ### The statements -/

/-- Settles O25: the command's effect is `fadd`, which on field elements subtracts P at most once. -/
theorem maddWritesTheSum : Obligations.MaddWritesTheSum := by
  unfold Obligations.MaddWritesTheSum
  intro d a b s
  exact ⟨encodedAs_fields (i := .madd d a b) rfl, writesField_of_effect rfl rfl,
    fun hinv => fadd_eq_ite (hinv.field_lt a) (hinv.field_lt b)⟩

/-- Settles O26: the command's effect is `fsub`, which on field elements adds P at most once. -/
theorem msubWritesTheDifference : Obligations.MsubWritesTheDifference := by
  unfold Obligations.MsubWritesTheDifference
  intro d a b s
  exact ⟨encodedAs_fields (i := .msub d a b) rfl, writesField_of_effect rfl rfl,
    fun hinv => fsub_eq_ite (hinv.field_lt a) (hinv.field_lt b)⟩

/-- Settles O27: the command's effect is `fmul`; P is prime, so it divides a product only with a factor. -/
theorem mmulWritesTheProduct : Obligations.MmulWritesTheProduct := by
  unfold Obligations.MmulWritesTheProduct
  intro d a b s
  exact ⟨encodedAs_fields (i := .mmul d a b) rfl, writesField_of_effect rfl rfl,
    fun hinv => fmul_eq_zero s.cfg.ok.prime (hinv.field_lt a) (hinv.field_lt b)⟩

/-- Settles O28: on 0 the one test fails; else the value is `finv`, whose product with the element is 1, and cancelling the element makes
it the only one. -/
theorem minvWritesTheInverse : Obligations.MinvWritesTheInverse := by
  unfold Obligations.MinvWritesTheInverse
  intro d a s
  refine ⟨encodedAs_fields (i := .minv d a) rfl, fun hzero => ?fails, fun hinv hne => ?completes⟩
  case fails => exact failsWith_of_failure (i := .minv d a) (raiseIf_pos hzero _)
  case completes =>
    have hlt := hinv.field_lt a
    have hprod := fmul_finv hlt hne
    refine ⟨finv s.cfg.P (s.readF a), writesField_of_effect (raiseIf_neg hne _) rfl, finv_eq s.cfg _, finv_ne_zero hlt hne,
      finv_lt s.cfg.ok.prime.pos _, ?product, fun w hw hone => ?unique⟩
    case product => rwa [mul_comm]
    case unique =>
      rw [mul_comm] at hone
      exact fmul_right_cancel s.cfg.ok.prime hlt hne hw (finv_lt s.cfg.ok.prime.pos _) (hone.trans hprod.symm)

/-- Settles O29: on a divisor 0 the one test fails; else the value is `fdiv`, whose product with the divisor is the dividend, and
cancelling the divisor makes it the only one. -/
theorem mdivWritesTheQuotient : Obligations.MdivWritesTheQuotient := by
  unfold Obligations.MdivWritesTheQuotient
  intro d a b s
  refine ⟨encodedAs_fields (i := .mdiv d a b) rfl, fun hzero => ?fails, fun hinv hne => ?completes⟩
  case fails => exact failsWith_of_failure (i := .mdiv d a b) (raiseIf_pos hzero _)
  case completes =>
    have hlt := hinv.field_lt b
    have hvlt := fdiv_lt s.cfg.ok.prime.pos (s.readF a) (s.readF b)
    have hprod := fmul_fdiv hlt hne (hinv.field_lt a)
    exact ⟨fdiv s.cfg.P (s.readF a) (s.readF b), writesField_of_effect (raiseIf_neg hne _) rfl, fdiv_eq s.cfg _ _, hvlt, hprod,
      fun w hw hquot => fmul_right_cancel s.cfg.ok.prime hlt hne hw hvlt (hquot.trans hprod.symm)⟩

end Sys2Proof.Machine
end

section
/-! PROOFS. The byte boundary and the moves LDF, STF, MVTC, MVTY, MVFY, SETX, GETX, NOP (41_data_movement.md R150 to R166): the word of each,
what it writes, and the one test of STF and of the indexed moves. -/

namespace Sys2Proof.Machine

open Sys2Proof.Claims

/-! ### The index of an indexed move -/

/-- An index that a word holds fits its field (30_encoding.md R91). -/
theorem idxFits_of_lt {i : Nat} (h : i < 4096) : idxFits i = true := decide_eq_true h

/-- The index check fails at and above NMAX (41_data_movement.md R152). -/
theorem State.indexFailure_of_le {i : Nat} {s : State} (h : s.cfg.NMAX ≤ i) : s.indexFailure i = some ⟨.indexRange, i, 0⟩ :=
  raiseIf_pos h _

/-- The index check passes below NMAX. -/
theorem State.indexFailure_of_lt {i : Nat} {s : State} (h : i < s.cfg.NMAX) : s.indexFailure i = none :=
  raiseIf_neg (Nat.not_le.2 h) _

/-- A command whose one test is the index check fails with `IndexRange` at and above NMAX. -/
theorem failsWith_indexRange {c : Instr} {i : Nat} {s : State} (htest : failureOf c = State.indexFailure i) (h : s.cfg.NMAX ≤ i) :
    FailsWith c s c.opcode 0x0B i 0 :=
  failsWith_of_failure ((congrFun htest s).trans (State.indexFailure_of_le h))

/-- After a write to a canonical memory its entry is the value written and every other entry is as before. -/
theorem Memory.write_entries {α : Type} [OfNat α 0] [DecidableEq α] {m : Memory α} (h : Memory.wf m) (i : Nat) (v : α) :
    (m.write i v).read i = v ∧ ∀ j, j ≠ i → (m.write i v).read j = m.read j :=
  ⟨(Memory.read_write h i i v).trans (if_pos rfl), fun j hj => (Memory.read_write h i j v).trans (if_neg hj)⟩

/-! ### The byte boundary -/

/-- The sum of 00_scope.md R11 is the value the model computes. -/
theorem bytesValue_eq (B : Bytes32) : bytesValue B = bigEndian B := (bigEndian_eq_sum B).symm

/-- The staged integer as a field element, by its sign (40_field_arithmetic.md R126). -/
theorem State.staged_eq (s : State) : s.staged =
    if s.INS = 0 then bytesValue s.IN % s.cfg.P else (s.cfg.P - bytesValue s.IN % s.cfg.P) % s.cfg.P := by
  rw [State.staged, norm_eq s.cfg.ok.prime.pos, bytesValue_eq]

/-- Byte `i` of the encoding, counted from the most significant (41_data_movement.md R151). -/
theorem bytesBE_getElem_toNat (v i : Nat) (hi : i < 32) : ((bytesBE v)[i]).toNat = v / 256 ^ (31 - i) % 256 := by
  rw [bytesBE_getElem v i hi, BitVec.toNat_ofNat]

/-- The encoding of a number of at most 32 bytes has that number as its value. -/
theorem bytesValue_bytesBE {v : Nat} (h : v < 2 ^ 256) : bytesValue (bytesBE v) = v := by
  rw [bytesValue_eq, bigEndian_bytesBE, Nat.mod_eq_of_lt h]

/-- What a successful `STF` writes (41_data_movement.md R157), to be rewritten with, since unifying through `bytesBE` is slow. -/
theorem effectOf_stf (a : Reg) (s : State) : effectOf (.stf a) s = { s with OUT := bytesBE (s.readF a) } := rfl

/-! ### The statements -/

/-- Settles O30: the command has no test, and its effect is the staged integer, which `norm_eq` gives by sign. -/
theorem ldfWritesTheStagedResidue : Obligations.LdfWritesTheStagedResidue := by
  unfold Obligations.LdfWritesTheStagedResidue
  intro d s
  rw [← s.staged_eq]
  exact ⟨encodedAs_fields (i := .ldf d) rfl, writesField_of_effect rfl rfl⟩

/-- Settles O31: the one test is the comparison with 2^256; below it, OUT is `bytesBE` of the register, whose value is the register. -/
theorem stfWritesBigEndianBytes : Obligations.StfWritesBigEndianBytes := by
  unfold Obligations.StfWritesBigEndianBytes
  intro a s
  refine ⟨encodedAs_fields (i := .stf a) rfl, fun hbig => ?fails, fun hinv hP => (hinv.field_lt a).trans_le hP,
    fun hlt => ?completes⟩
  case fails => exact failsWith_of_failure (i := .stf a) (raiseIf_pos hbig _)
  case completes =>
    have hpass : failureOf (.stf a) s = none := raiseIf_neg (Nat.not_le.2 hlt) _
    have hnext := exec_of_none hpass
    rw [effectOf_stf] at hnext
    exact ⟨_, hnext, bytesBE_getElem_toNat _, bytesValue_bytesBE hlt, rfl⟩

/-- Settles O34: the index check, then a write to COEF. -/
theorem mvtcWritesTheEntry : Obligations.MvtcWritesTheEntry := by
  unfold Obligations.MvtcWritesTheEntry
  intro i a s
  refine ⟨fun hi => encodedAs_fields (i := .mvtc i a) (idxFits_of_lt hi), failsWith_indexRange rfl, fun hinv hlt => ?_⟩
  obtain ⟨hsame, hother⟩ := Memory.write_entries hinv.coef_wf i (s.readF a)
  exact ⟨_, exec_of_none (State.indexFailure_of_lt hlt), hsame, hother, rfl⟩

/-- Settles O35: the index check, then a write to SY. -/
theorem mvtyWritesTheEntry : Obligations.MvtyWritesTheEntry := by
  unfold Obligations.MvtyWritesTheEntry
  intro i a s
  refine ⟨fun hi => encodedAs_fields (i := .mvty i a) (idxFits_of_lt hi), failsWith_indexRange rfl, fun hinv hlt => ?_⟩
  obtain ⟨hsame, hother⟩ := Memory.write_entries hinv.sy_wf i (s.readF a)
  exact ⟨_, exec_of_none (State.indexFailure_of_lt hlt), hsame, hother, rfl⟩

/-- Settles O36: the index check, then a write of `XIN` to SX. -/
theorem setxWritesTheEntry : Obligations.SetxWritesTheEntry := by
  unfold Obligations.SetxWritesTheEntry
  intro i s
  refine ⟨fun hi => encodedAs_fields (i := .setx i) (idxFits_of_lt hi), failsWith_indexRange rfl, fun hinv hlt => ?_⟩
  obtain ⟨hsame, hother⟩ := Memory.write_entries hinv.sx_wf i s.XIN
  exact ⟨_, exec_of_none (State.indexFailure_of_lt hlt), hsame, hother, rfl⟩

/-- Settles O37: the index check, then the entry of SY as the value written to the register. -/
theorem mvfyReadsTheEntry : Obligations.MvfyReadsTheEntry := by
  unfold Obligations.MvfyReadsTheEntry
  intro d i s
  exact ⟨fun hi => encodedAs_fields (i := .mvfy d i) (idxFits_of_lt hi), failsWith_indexRange rfl,
    fun hlt => writesField_of_effect (State.indexFailure_of_lt hlt) rfl⟩

/-- Settles O38: the index check, then the entry of SX in `XOUT`. -/
theorem getxReadsTheEntry : Obligations.GetxReadsTheEntry := by
  unfold Obligations.GetxReadsTheEntry
  intro i s
  exact ⟨fun hi => encodedAs_fields (i := .getx i) (idxFits_of_lt hi), failsWith_indexRange rfl,
    fun hlt => exec_of_none (State.indexFailure_of_lt hlt)⟩

/-- Settles O39: the five moves have the index check as their one test. -/
theorem indexOutOfRangeFails : Obligations.IndexOutOfRangeFails := by
  unfold Obligations.IndexOutOfRangeFails
  intro i r s hle
  exact ⟨failsWith_indexRange rfl hle, failsWith_indexRange rfl hle, failsWith_indexRange rfl hle, failsWith_indexRange rfl hle,
    failsWith_indexRange rfl hle⟩

/-- Settles O40: the zero word is the encoding of `NOP`, which has no test and no write of its own. -/
theorem nopOnlyClearsTheCode : Obligations.NopOnlyClearsTheCode := by
  unfold Obligations.NopOnlyClearsTheCode
  exact ⟨decode_encode (i := .nop) rfl, fun _ => exec_of_none rfl⟩

end Sys2Proof.Machine
end

section
/-! PROOFS. The polynomial evaluator (42_polynomial_evaluator.md R181 to R187): Horner's rule computes the polynomial's value, the tests of
PEVAL and SPLIT in their order, and what the two commands write. -/

namespace Sys2Proof.Machine

open Sys2Proof.Claims

/-! ### Horner's rule -/

/-- `horner(T, x)` is the sum of R186 reduced modulo P: both are field elements, and they agree in ZMod P. -/
theorem horner_eq_sum {P : Nat} (hP : 0 < P) (coef : Memory Nat) (t x : Nat) :
    horner P coef t x = (∑ i ∈ Finset.range t, coef.read i * x ^ i) % P := by
  refine eq_of_cast_eq (horner_lt hP coef t x) (Nat.mod_lt _ hP) ?_
  rw [cast_horner, ZMod.natCast_mod]
  push_cast
  rfl

/-! ### Tests in their order -/

section
variable {c : Prop} [Decidable c] (f : Failure) (later : Option Failure)

/-- A test that fails decides, whatever tests come after it (60_exceptions.md R248). -/
theorem tests_of_raise (h : c) : (raiseIf c f <|> later) = some f := tests_eq_some.2 (.inl (raiseIf_pos h f))

/-- A test that passes leaves the decision to the tests after it. -/
theorem tests_of_pass (h : ¬ c) : (raiseIf c f <|> later) = later := by
  rw [raiseIf_neg h]
  rfl

end

section
variable {s : State}

/-- The first test of `PEVAL`. -/
theorem State.pevalFailure_threshold (hT : s.T.toNat < 2) : s.pevalFailure = some ⟨.invalidThreshold, 0, 0⟩ :=
  tests_of_raise _ _ hT

/-- The second test of `PEVAL`, when the first passes. -/
theorem State.pevalFailure_count (hT : 2 ≤ s.T.toNat) (hmax : s.cfg.NMAX < s.T.toNat) :
    s.pevalFailure = some ⟨.countTooLarge, 0, 0⟩ :=
  (tests_of_pass _ _ (Nat.not_lt.2 hT)).trans (tests_of_raise _ _ hmax)

/-- The third test of `PEVAL`, when the first two pass. -/
theorem State.pevalFailure_reserved (hT : 2 ≤ s.T.toNat) (hmax : s.T.toNat ≤ s.cfg.NMAX) (hx : s.xinResidue = 0) :
    s.pevalFailure = some ⟨.reservedIndex, 0, 0⟩ :=
  (tests_of_pass _ _ (Nat.not_lt.2 hT)).trans ((tests_of_pass _ _ (Nat.not_lt.2 hmax)).trans (raiseIf_pos hx _))

/-- The first test of `SPLIT`. -/
theorem State.splitFailure_threshold (hT : s.T.toNat < 2) : s.splitFailure = some ⟨.invalidThreshold, 0, 0⟩ :=
  tests_of_raise _ _ hT

/-- The second test of `SPLIT`, when the first passes. -/
theorem State.splitFailure_shares (hT : 2 ≤ s.T.toNat) (hN : s.N.toNat < s.T.toNat) :
    s.splitFailure = some ⟨.insufficientN, 0, 0⟩ :=
  (tests_of_pass _ _ (Nat.not_lt.2 hT)).trans (tests_of_raise _ _ hN)

/-- The third test of `SPLIT`, when the first two pass. -/
theorem State.splitFailure_count (hT : 2 ≤ s.T.toNat) (hN : s.T.toNat ≤ s.N.toNat) (hmax : s.cfg.NMAX < s.N.toNat) :
    s.splitFailure = some ⟨.countTooLarge, 0, 0⟩ :=
  (tests_of_pass _ _ (Nat.not_lt.2 hT)).trans ((tests_of_pass _ _ (Nat.not_lt.2 hN)).trans (raiseIf_pos hmax _))

end

/-! ### The share table after SPLIT -/

/-- `SPLIT` writes share number `x` at entry `x - 1`: its x-coordinate is `x`, its value the polynomial's at `x`
(42_polynomial_evaluator.md R183). -/
theorem effectOf_split_share {s : State} (hinv : s.Inv) {x : Nat} (hpos : 1 ≤ x) (hle : x ≤ s.N.toNat) :
    ((effectOf .split s).SX.read (x - 1)).toNat = x
      ∧ (effectOf .split s).SY.read (x - 1) = (∑ i ∈ Finset.range s.T.toNat, s.COEF.read i * x ^ i) % s.cfg.P := by
  have hentry : x - 1 < s.N.toNat := by omega
  have hnumber : x - 1 + 1 = x := Nat.sub_add_cancel hpos
  have hword : x < 2 ^ 32 := hle.trans_lt s.N.isLt
  constructor
  · rw [effectOf, Memory.read_writeRange hinv.sx_wf, if_pos hentry, hnumber, BitVec.toNat_ofNat, Nat.mod_eq_of_lt hword]
  · rw [effectOf, Memory.read_writeRange hinv.sy_wf, if_pos hentry, hnumber, horner_eq_sum s.cfg.ok.prime.pos]

/-- `SPLIT` leaves the entries of the share table at and above N alone. -/
theorem effectOf_split_rest {s : State} (hinv : s.Inv) {k : Nat} (hk : s.N.toNat ≤ k) :
    (effectOf .split s).SX.read k = s.SX.read k ∧ (effectOf .split s).SY.read k = s.SY.read k :=
  have habove : ¬ k < s.N.toNat := Nat.not_lt.2 hk
  ⟨(Memory.read_writeRange hinv.sx_wf _ _ k).trans (if_neg habove),
    (Memory.read_writeRange hinv.sy_wf _ _ k).trans (if_neg habove)⟩

/-! ### The statements -/

/-- Settles O41: each failing case is one of the three tests after those that pass; when all pass, the value written is `horner` at the
residue of `XIN`, which is the sum. -/
theorem pevalWritesThePolynomialValue : Obligations.PevalWritesThePolynomialValue := by
  unfold Obligations.PevalWritesThePolynomialValue
  intro d s
  refine ⟨encodedAs_fields (i := .peval d) rfl, fun hT => ?threshold, fun hT hmax => ?count, fun hT hmax hx => ?reserved,
    fun hT hmax hx => ?completes⟩
  case threshold => exact failsWith_of_failure (i := .peval d) (State.pevalFailure_threshold hT)
  case count => exact failsWith_of_failure (i := .peval d) (State.pevalFailure_count hT hmax)
  case reserved => exact failsWith_of_failure (i := .peval d) (State.pevalFailure_reserved hT hmax hx)
  case completes =>
    rw [← horner_eq_sum s.cfg.ok.prime.pos]
    exact writesField_of_effect (pevalFailure_eq_none.2 ⟨hT, hmax, hx⟩) rfl

/-- Settles O42: each failing case is one of the three tests after those that pass; when all pass, the two range writes give the shares
and keep the entries above them, and COEF is empty. -/
theorem splitWritesTheShares : Obligations.SplitWritesTheShares := by
  unfold Obligations.SplitWritesTheShares
  refine ⟨decode_encode (i := .split) rfl, fun s => ⟨fun hT => ?threshold, fun hT hN => ?shares, fun hT hN hmax => ?count,
    fun hinv hT hN hmax => ?completes⟩⟩
  case threshold => exact failsWith_of_failure (i := .split) (State.splitFailure_threshold hT)
  case shares => exact failsWith_of_failure (i := .split) (State.splitFailure_shares hT hN)
  case count => exact failsWith_of_failure (i := .split) (State.splitFailure_count hT hN hmax)
  case completes =>
    exact ⟨_, exec_of_none (splitFailure_eq_none.2 ⟨hT, hN, hmax⟩), fun _ hpos hle => effectOf_split_share hinv hpos hle,
      fun _ hk => effectOf_split_rest hinv hk, Memory.read_nil, rfl⟩

end Sys2Proof.Machine
end

section
/-! PROOFS. The Lagrange interpolator (43_lagrange_interpolator.md R201 to R205): the tests of LBASIS and COMBINE in their order, the basis
value as the quotient of two products, and what the two commands write. -/

namespace Sys2Proof.Machine

open Sys2Proof.Claims

/-! ### Groups of tests in their order -/

section
variable {a b : Option Failure}

/-- A group of tests that fails decides, whatever tests come after it (60_exceptions.md R248). -/
theorem tests_of_some {f : Failure} (h : a = some f) : (a <|> b) = some f := tests_eq_some.2 (.inl h)

/-- A group of tests that passes leaves the decision to the tests after it. -/
theorem tests_of_none (h : a = none) : (a <|> b) = b := by
  rw [h]
  rfl

end

/-! ### The checks of the share table -/

section
variable {s : State}

/-- The first count check (43_lagrange_interpolator.md R202). -/
theorem State.countFailure_few (hK : s.K.toNat < 2) : s.countFailure = some ⟨.insufficientShares, 0, 0⟩ :=
  tests_of_raise _ _ hK

/-- The second count check, when the first passes. -/
theorem State.countFailure_many (hK : 2 ≤ s.K.toNat) (hmax : s.cfg.NMAX < s.K.toNat) :
    s.countFailure = some ⟨.countTooLarge, 0, 0⟩ :=
  (tests_of_pass _ _ (Nat.not_lt.2 hK)).trans (raiseIf_pos hmax _)

/-- The scans report the first reserved share (43_lagrange_interpolator.md R203). -/
theorem State.scanFailure_reserved {q : Nat} (hq : q < s.K.toNat) (hres : Reserved s q) (hfirst : ∀ j < q, ¬ Reserved s j) :
    s.scanFailure = some ⟨.reservedIndex, q, 0⟩ :=
  tests_of_some (reservedScan_eq_some.2 ⟨q, hq, hres, hfirst, rfl⟩)

/-- With no share reserved, the scans report the equal pair that ends first, and of those the one that begins first. -/
theorem State.scanFailure_duplicate {p q : Nat} (hnone : ∀ j < s.K.toNat, ¬ Reserved s j) (hpq : p < q) (hq : q < s.K.toNat)
    (hsame : SameX s p q) (hends : ∀ j < q, ∀ k < j, ¬ SameX s k j) (hbegins : ∀ k < p, ¬ SameX s k q) :
    s.scanFailure = some ⟨.duplicateIndex, p, q⟩ :=
  (tests_of_none (reservedScan_eq_none.2 hnone)).trans
    (duplicateScan_eq_some.2 ⟨q, hq, p, hpq, hsame, hbegins, hends, rfl⟩)

/-- A share table is in order exactly when the count checks and the scans pass. -/
theorem tableOK_iff : TableOK s ↔ s.countFailure = none ∧ s.scanFailure = none := by
  rw [countFailure_eq_none, scanFailure_eq_none, and_assoc]
  rfl

/-- The denominator of a share is 0 exactly when the share collides with another (43_lagrange_interpolator.md R209). -/
theorem basisDen_eq_zero_iff_collides {i : Nat} : basisDen s.cfg.P s.xs s.K.toNat i = 0 ↔ Collides s i :=
  basisDen_eq_zero fun _ => Nat.mod_lt _ s.cfg.ok.prime.pos

/-- The last test of `COMBINE` reports the first share that collides (43_lagrange_interpolator.md R205). -/
theorem State.denominatorScan_collides {i : Nat} (hi : i < s.K.toNat) (hcol : Collides s i) (hfirst : ∀ j < i, ¬ Collides s j) :
    s.denominatorScan = some ⟨.arithmeticImpossibility, i, 0⟩ :=
  denominatorScan_eq_some.2 ⟨i, hi, basisDen_eq_zero_iff_collides.2 hcol,
    fun j hj => basisDen_eq_zero_iff_collides.not.2 (hfirst j hj), rfl⟩

/-- The last test of `COMBINE` passes when no share collides. -/
theorem State.denominatorScan_passes (hnone : ∀ i < s.K.toNat, ¬ Collides s i) : s.denominatorScan = none :=
  denominatorScan_eq_none.2 fun i hi => basisDen_eq_zero_iff_collides.not.2 (hnone i hi)

/-! ### The tests of LBASIS -/

variable {i : Nat} {f : Failure}

/-- `LBASIS` fails with a failing count check. -/
theorem State.lbasisFailure_count (hcount : s.countFailure = some f) : s.lbasisFailure i = some f :=
  tests_of_some hcount

/-- `LBASIS` fails on an index that is no share's, when the count checks pass. -/
theorem State.lbasisFailure_index (hcount : s.countFailure = none) (hi : s.K.toNat ≤ i) :
    s.lbasisFailure i = some ⟨.indexRange, i, 0⟩ :=
  (tests_of_none hcount).trans (tests_of_raise _ _ hi)

/-- `LBASIS` fails with a failing scan, when the count checks pass and the index is a share's. -/
theorem State.lbasisFailure_scan (hcount : s.countFailure = none) (hi : i < s.K.toNat) (hscan : s.scanFailure = some f) :
    s.lbasisFailure i = some f :=
  (tests_of_none hcount).trans ((tests_of_pass _ _ (Nat.not_le.2 hi)).trans (tests_of_some hscan))

/-- `LBASIS` on a share of a table in order has only the share's own denominator left to test. -/
theorem State.lbasisFailure_of_tableOK (hok : TableOK s) (hi : i < s.K.toNat) :
    s.lbasisFailure i = raiseIf (basisDen s.cfg.P s.xs s.K.toNat i = 0) ⟨.arithmeticImpossibility, i, 0⟩ := by
  obtain ⟨hcount, hscan⟩ := tableOK_iff.1 hok
  exact (tests_of_none hcount).trans ((tests_of_pass _ _ (Nat.not_le.2 hi)).trans (tests_of_none hscan))

/-! ### The tests of COMBINE -/

/-- `COMBINE` fails with a failing count check. -/
theorem State.combineFailure_count (hcount : s.countFailure = some f) : s.combineFailure = some f :=
  tests_of_some hcount

/-- `COMBINE` fails with a failing scan, when the count checks pass. -/
theorem State.combineFailure_scan (hcount : s.countFailure = none) (hscan : s.scanFailure = some f) : s.combineFailure = some f :=
  (tests_of_none hcount).trans (tests_of_some hscan)

/-- `COMBINE` on a table in order has only the denominators left to test. -/
theorem State.combineFailure_of_tableOK (hok : TableOK s) : s.combineFailure = s.denominatorScan := by
  obtain ⟨hcount, hscan⟩ := tableOK_iff.1 hok
  exact (tests_of_none hcount).trans (tests_of_none hscan)

end

/-! ### The values -/

/-- The residue of an x-coordinate and the x-coordinate itself are one element of the field. -/
theorem cast_xs (s : State) (j : Nat) : (s.xs j : ZMod s.cfg.P) = xField s j := ZMod.natCast_mod _ _

/-- A basis value times its denominator is its numerator (43_lagrange_interpolator.md R201). -/
theorem cast_basis_mul_prod {s : State} {i : Nat} (hcol : ¬ Collides s i) :
    (basis s.cfg.P s.xs s.K.toNat i : ZMod s.cfg.P) * ∏ j ∈ (Finset.range s.K.toNat).erase i, (xField s i - xField s j)
      = ∏ j ∈ (Finset.range s.K.toNat).erase i, (0 - xField s j) := by
  have hpos := s.cfg.ok.prime.pos
  have hden := cast_ne_zero (basisDen_lt hpos _ _ _) (basisDen_eq_zero_iff_collides.not.2 hcol)
  have hnum_eq := cast_basisNum hpos s.xs s.K.toNat i
  have hden_eq := cast_basisDen hpos s.xs s.K.toNat i
  simp only [cast_xs] at hnum_eq hden_eq
  rw [← hden_eq, basis, cast_fmul, mul_assoc, cast_finv_mul hden, mul_one, hnum_eq]
  simp only [zero_sub]

/-- `LBASIS` writes the basis value when the table is in order and the share collides with no other. -/
theorem writesField_lbasis {s : State} {i : Nat} (hok : TableOK s) (hi : i < s.K.toNat) (hcol : ¬ Collides s i) (d : Reg) :
    WritesField (.lbasis d i) s d (basis s.cfg.P s.xs s.K.toNat i) :=
  writesField_of_effect
    ((State.lbasisFailure_of_tableOK hok hi).trans (raiseIf_neg (basisDen_eq_zero_iff_collides.not.2 hcol) _)) rfl

/-- The accumulator of `COMBINE` is the weighted sum reduced modulo P: both are field elements, and they agree in ZMod P. -/
theorem combineSum_eq_sum {P : Nat} (hP : 0 < P) (xs : Nat → Nat) (sy : Memory Nat) (K : Nat) :
    combineSum P xs sy K = (∑ i ∈ Finset.range K, sy.read i * basis P xs K i) % P := by
  refine eq_of_cast_eq (combineSum_lt hP xs sy K) (Nat.mod_lt _ hP) ?_
  rw [cast_combineSum, ZMod.natCast_mod]
  push_cast
  rfl

/-- `COMBINE` writes the weighted sum of the share values when the table is in order and no share collides with another. -/
theorem writesField_combine {s : State} (hok : TableOK s) (hnone : ∀ i < s.K.toNat, ¬ Collides s i) (d : Reg) :
    WritesField (.combine d) s d
      ((∑ i ∈ Finset.range s.K.toNat, s.SY.read i * basis s.cfg.P s.xs s.K.toNat i) % s.cfg.P) := by
  rw [← combineSum_eq_sum s.cfg.ok.prime.pos]
  exact writesField_of_effect ((State.combineFailure_of_tableOK hok).trans (State.denominatorScan_passes hnone)) rfl

/-! ### The statements -/

/-- Settles O43: each failing case is a test after those that pass, the share's own denominator last, which is 0 exactly when the share
collides; else the value written is the basis value. -/
theorem lbasisWritesTheBasisValue : Obligations.LbasisWritesTheBasisValue := by
  unfold Obligations.LbasisWritesTheBasisValue
  intro d i s
  refine ⟨fun hi => encodedAs_fields (i := .lbasis d i) (idxFits_of_lt hi), fun hK => ?few, fun hK hmax => ?many,
    fun hK hmax hi => ?index, fun q hK hmax hi hq hres hfirst => ?reserved,
    fun p q hK hmax hi hnone hpq hq hsame hends hbegins => ?duplicate, fun hok hi hcol => ?collides, fun hok hi hcol => ?completes⟩
  case few => exact failsWith_of_failure (i := .lbasis d i) (State.lbasisFailure_count (State.countFailure_few hK))
  case many => exact failsWith_of_failure (i := .lbasis d i) (State.lbasisFailure_count (State.countFailure_many hK hmax))
  case index =>
    exact failsWith_of_failure (i := .lbasis d i) (State.lbasisFailure_index (countFailure_eq_none.2 ⟨hK, hmax⟩) hi)
  case reserved =>
    exact failsWith_of_failure (i := .lbasis d i)
      (State.lbasisFailure_scan (countFailure_eq_none.2 ⟨hK, hmax⟩) hi (State.scanFailure_reserved hq hres hfirst))
  case duplicate =>
    exact failsWith_of_failure (i := .lbasis d i)
      (State.lbasisFailure_scan (countFailure_eq_none.2 ⟨hK, hmax⟩) hi
        (State.scanFailure_duplicate hnone hpq hq hsame hends hbegins))
  case collides =>
    exact failsWith_of_failure (i := .lbasis d i)
      ((State.lbasisFailure_of_tableOK hok hi).trans (raiseIf_pos (basisDen_eq_zero_iff_collides.2 hcol) _))
  case completes =>
    exact ⟨_, writesField_lbasis hok hi hcol d, basis_lt s.cfg.ok.prime.pos _ _ _, cast_basis_mul_prod hcol⟩

/-- Settles O44: each failing case is a test after those that pass, the scan of the denominators last; else the weights of the sum are the
basis values that `LBASIS` writes. -/
theorem combineWritesTheWeightedSum : Obligations.CombineWritesTheWeightedSum := by
  unfold Obligations.CombineWritesTheWeightedSum
  intro d s
  refine ⟨encodedAs_fields (i := .combine d) rfl, fun hK => ?few, fun hK hmax => ?many,
    fun q hK hmax hq hres hfirst => ?reserved, fun p q hK hmax hnone hpq hq hsame hends hbegins => ?duplicate,
    fun i hok hi hcol hfirst => ?collides, fun hok hnone => ?completes⟩
  case few => exact failsWith_of_failure (i := .combine d) (State.combineFailure_count (State.countFailure_few hK))
  case many => exact failsWith_of_failure (i := .combine d) (State.combineFailure_count (State.countFailure_many hK hmax))
  case reserved =>
    exact failsWith_of_failure (i := .combine d)
      (State.combineFailure_scan (countFailure_eq_none.2 ⟨hK, hmax⟩) (State.scanFailure_reserved hq hres hfirst))
  case duplicate =>
    exact failsWith_of_failure (i := .combine d)
      (State.combineFailure_scan (countFailure_eq_none.2 ⟨hK, hmax⟩)
        (State.scanFailure_duplicate hnone hpq hq hsame hends hbegins))
  case collides =>
    exact failsWith_of_failure (i := .combine d)
      ((State.combineFailure_of_tableOK hok).trans (State.denominatorScan_collides hi hcol hfirst))
  case completes =>
    exact ⟨basis s.cfg.P s.xs s.K.toNat, fun _ hi => writesField_lbasis hok hi (hnone _ hi) d, writesField_combine hok hnone d⟩

end Sys2Proof.Machine
end

section
/-! PROOFS. Failures and their record in CODE and EINFO (60_exceptions.md R241, R245 to R247): a failure changes nothing else, and every
word written to `CMD`, but no other transaction, makes the record anew. -/

namespace Sys2Proof.Machine

open Sys2Proof.Claims

/-! ### The codes a command can raise -/

/-- When the tests fail, it is with one of these codes. -/
def RaisesOnly (tests : Option Failure) (codes : List Byte) : Prop := ∀ f, tests = some f → f.code.number ∈ codes

theorem raisesOnly_none : RaisesOnly none [] := fun _ h => by cases h

theorem raisesOnly_raiseIf (c : Prop) [Decidable c] (f : Failure) : RaisesOnly (raiseIf c f) [f.code.number] := by
  intro g h
  obtain ⟨-, rfl⟩ := raiseIf_eq_some.1 h
  exact List.mem_singleton_self _

/-- Two groups of tests raise the codes of either. -/
theorem RaisesOnly.orElse {a b : Option Failure} {l m : List Byte} (ha : RaisesOnly a l) (hb : RaisesOnly b m) :
    RaisesOnly (a <|> b) (l ++ m) := by
  intro f h
  obtain h | ⟨-, h⟩ := tests_eq_some.1 h
  · exact List.mem_append_left m (ha f h)
  · exact List.mem_append_right l (hb f h)

section
variable (s : State)

theorem State.indexFailure_raisesOnly (i : Nat) : RaisesOnly (s.indexFailure i) [0x0B] := raisesOnly_raiseIf _ _

theorem State.pevalFailure_raisesOnly : RaisesOnly s.pevalFailure [0x01, 0x0A, 0x08] :=
  (raisesOnly_raiseIf _ _).orElse ((raisesOnly_raiseIf _ _).orElse (raisesOnly_raiseIf _ _))

theorem State.splitFailure_raisesOnly : RaisesOnly s.splitFailure [0x01, 0x02, 0x0A] :=
  (raisesOnly_raiseIf _ _).orElse ((raisesOnly_raiseIf _ _).orElse (raisesOnly_raiseIf _ _))

theorem State.countFailure_raisesOnly : RaisesOnly s.countFailure [0x07, 0x0A] :=
  (raisesOnly_raiseIf _ _).orElse (raisesOnly_raiseIf _ _)

theorem State.reservedScan_raisesOnly : RaisesOnly s.reservedScan [0x08] := by
  intro f h
  obtain ⟨i, -, -, -, rfl⟩ := reservedScan_eq_some.1 h
  exact List.mem_singleton_self _

theorem State.duplicateScan_raisesOnly : RaisesOnly s.duplicateScan [0x03] := by
  intro f h
  obtain ⟨j, -, i, -, -, -, -, rfl⟩ := duplicateScan_eq_some.1 h
  exact List.mem_singleton_self _

theorem State.denominatorScan_raisesOnly : RaisesOnly s.denominatorScan [0x05] := by
  intro f h
  obtain ⟨i, -, -, -, rfl⟩ := denominatorScan_eq_some.1 h
  exact List.mem_singleton_self _

theorem State.scanFailure_raisesOnly : RaisesOnly s.scanFailure [0x08, 0x03] :=
  s.reservedScan_raisesOnly.orElse s.duplicateScan_raisesOnly

theorem State.lbasisFailure_raisesOnly (i : Nat) : RaisesOnly (s.lbasisFailure i) [0x07, 0x0A, 0x0B, 0x08, 0x03, 0x05] :=
  s.countFailure_raisesOnly.orElse
    ((raisesOnly_raiseIf _ _).orElse (s.scanFailure_raisesOnly.orElse (raisesOnly_raiseIf _ _)))

theorem State.combineFailure_raisesOnly : RaisesOnly s.combineFailure [0x07, 0x0A, 0x08, 0x03, 0x05] :=
  s.countFailure_raisesOnly.orElse (s.scanFailure_raisesOnly.orElse s.denominatorScan_raisesOnly)

/-- The tests of a command raise only the codes that the table lists for it (60_exceptions.md R241). -/
theorem failureOf_raisesOnly (i : Instr) : RaisesOnly (failureOf i s) (codesRaisedBy i) := by
  cases i with
  | nop | madd | msub | mmul | ldf | zero => exact raisesOnly_none
  | minv | mdiv | stf => exact raisesOnly_raiseIf _ _
  | mvtc i | mvty i | mvfy _ i | setx i | getx i => exact s.indexFailure_raisesOnly i
  | peval => exact s.pevalFailure_raisesOnly
  | split => exact s.splitFailure_raisesOnly
  | lbasis _ i => exact s.lbasisFailure_raisesOnly i
  | combine => exact s.combineFailure_raisesOnly

end

/-- No command raises the code of success. -/
theorem zero_notMem_codesRaisedBy (i : Instr) : 0 ∉ codesRaisedBy i := by
  cases i <;> simp [codesRaisedBy]

/-! ### What a word written to CMD leaves in CODE and EINFO -/

/-- The opcode of a decoded command is the word's top byte. -/
theorem opcode_of_decode {w : Word} {i : Instr} (h : decode w = .ok i) : i.opcode = (fieldsOf w).opc := by
  obtain ⟨r, hr, hopc, -, rfl⟩ := decode_ok h
  rw [opcode_make r hr, hopc]

/-- Either a word fails, with a code that is not 0, its top byte in EINFO and nothing else changed, or `CODE` and `EINFO` become 0
(60_exceptions.md R245, R246). -/
theorem issueCommand_cases {w : Word} {s t : State} (h : issueCommand w s = .next t) :
    (t.CODE ≠ 0 ∧ ∃ f, t = s.fail (fieldsOf w).opc f) ∨ (t.CODE = 0 ∧ t.EINFO = 0) := by
  cases hdec : decode w with
  | error e =>
    rw [issueCommand_error hdec] at h
    cases h
    exact .inl ⟨(by decide : CompletionCode.illegalCommand.number ≠ 0), _, rfl⟩
  | ok i =>
    rw [issueCommand_ok hdec] at h
    obtain ⟨f, hf, rfl⟩ | ⟨-, rfl⟩ := exec_cases h
    · have hcode : f.code.number ≠ 0 := fun h0 => zero_notMem_codesRaisedBy i (h0 ▸ failureOf_raisesOnly s i f hf)
      exact .inl ⟨hcode, f, by rw [opcode_of_decode hdec]⟩
    · exact .inr ⟨rfl, rfl⟩

/-! ### The old CODE and EINFO enter no outcome -/

section
variable (s : State) (c : Byte) (e : Word)

theorem failureOf_record (i : Instr) : failureOf i { s with CODE := c, EINFO := e } = failureOf i s := by
  cases i <;> rfl

/-- A command's writes are the same, and its success overwrites the record. -/
theorem effectOf_record (i : Instr) : (effectOf i { s with CODE := c, EINFO := e }).succeed = (effectOf i s).succeed := by
  cases i <;> rfl

theorem exec_record (i : Instr) : exec i { s with CODE := c, EINFO := e } = exec i s := by
  have htests := failureOf_record s c e i
  cases h : failureOf i s with
  | none => rw [exec_of_none h, exec_of_none (htests.trans h), effectOf_record]
  | some f =>
    rw [exec_of_some h, exec_of_some (htests.trans h)]
    rfl

theorem issueCommand_record (w : Word) : issueCommand w { s with CODE := c, EINFO := e } = issueCommand w s := by
  cases h : decode w with
  | ok i => rw [issueCommand_ok h, issueCommand_ok h, exec_record]
  | error d =>
    rw [issueCommand_error h, issueCommand_error h]
    rfl

end

/-! ### The step that takes a transaction -/

/-- The step that takes a word written to `CMD` issues the word and answers `OKAY` (20_memory.md R67). -/
theorem performs_command_iff {s t : State} {w : Word} {rest : List HostMove} :
    Performs s (.write PortWord.cmd.offset 4 w) rest t ↔
      ∃ u, issueCommand w { s with port := rest } = .next u ∧ t = u.respond .okay := by
  have hstep : step { s with port := .write PortWord.cmd.offset 4 w :: rest } = _ := (step_move rfl).trans (perform_write_cmd _ w)
  obtain ⟨u, hu, -⟩ := issueCommand_next w { s with port := rest }
  rw [Performs, hstep, hu]
  simp [mapNext, eq_comm]

/-- A step has one outcome. -/
theorem performs_unique {s t u : State} {m : HostMove} {rest : List HostMove} (ht : Performs s m rest t)
    (hu : Performs s m rest u) : t = u :=
  Host.Outcome.next.inj (ht.symm.trans hu)

/-- A read changes nothing but the responses (20_memory.md R62, R65). -/
theorem performs_read (s : State) (off width : Nat) (rest : List HostMove) :
    ∃ r, Performs s (.read off width) rest { s with port := rest, responses := s.responses ++ [r] } := by
  cases hword : portWordAt off width with
  | none => exact ⟨.error, performs_read_refused (by simp [hword]) rest⟩
  | some w =>
    obtain ⟨rfl, rfl⟩ := portWordAt_eq_some.1 hword
    cases hv : s.wordValue w with
    | some v => exact ⟨.value v, performs_read_value hv rest⟩
    | none => exact ⟨.error, performs_read_refused (by simp [hv]) rest⟩

/-- A write to a staging register leaves `CODE` and `EINFO` alone. -/
theorem setWord_record {s t : State} {w : PortWord} {v : Word} (h : s.setWord w v = some t) :
    t.CODE = s.CODE ∧ t.EINFO = s.EINFO := by
  cases w <;> cases h <;> exact ⟨rfl, rfl⟩

/-- A word of the map other than `CMD` that takes no write is read-only (20_memory.md R64). -/
theorem readOnly_of_setWord_none {s : State} {w : PortWord} {v : Word} (hw : w ≠ .cmd) (h : s.setWord w v = none) :
    w.access = .RO := by
  cases w with
  | cmd => exact absurd rfl hw
  | status | einfo | cap | id | xout | outW => rfl
  | cfgT | cfgN | cfgK | xin | ins | inW => cases h

/-- A write that is not to `CMD` leaves `CODE` and `EINFO` alone. -/
theorem performs_write_record (s : State) {off width : Nat} (hcmd : (off, width) ≠ (PortWord.cmd.offset, 4)) (v : Word)
    (rest : List HostMove) : ∃ t, Performs s (.write off width v) rest t ∧ t.CODE = s.CODE ∧ t.EINFO = s.EINFO := by
  cases hword : portWordAt off width with
  | none => exact ⟨_, performs_write_unnamed hword s rest v, rfl, rfl⟩
  | some w =>
    obtain ⟨rfl, rfl⟩ := portWordAt_eq_some.1 hword
    cases hset : s.setWord w v with
    | some u =>
      obtain ⟨hcode, heinfo⟩ := setWord_record hset
      exact ⟨_, performs_write_register hset rest, hcode, heinfo⟩
    | none =>
      have hw : w ≠ .cmd := fun h => hcmd (h ▸ rfl)
      exact ⟨_, performs_write_readOnly (readOnly_of_setWord_none hw hset) s rest v, rfl, rfl⟩

/-! ### The statements -/

/-- Settles O20: a nonzero code is left only by a failure, which is `State.fail`. -/
theorem failuresArePrecise : Obligations.FailuresArePrecise := by
  unfold Obligations.FailuresArePrecise
  intro s t w rest hstep hcode
  obtain ⟨u, hissue, rfl⟩ := performs_command_iff.1 hstep
  obtain ⟨-, f, rfl⟩ | ⟨hzero, -⟩ := issueCommand_cases hissue
  · rfl
  · exact absurd hzero hcode

/-- Settles O21: no outcome reads the old record, a word's outcome is a failure under its own opcode or a success, and no other
transaction writes the record. -/
theorem codeIsNotSticky : Obligations.CodeIsNotSticky := by
  unfold Obligations.CodeIsNotSticky
  intro s rest
  refine ⟨fun w => ?command, fun off width t hread => ?read, fun off width v t hcmd hwrite => ?write⟩
  case command =>
    obtain ⟨u, hissue, -⟩ := issueCommand_next w { s with port := rest }
    refine ⟨u.respond .okay, performs_command_iff.2 ⟨u, hissue, rfl⟩, fun c e => ?overwrites, ?outcome⟩
    case overwrites =>
      exact performs_command_iff.2 ⟨u, (issueCommand_record { s with port := rest } c e w).trans hissue, rfl⟩
    case outcome =>
      obtain ⟨hcode, f, rfl⟩ | ⟨hcode, heinfo⟩ := issueCommand_cases hissue
      · exact ⟨fun hzero => absurd hzero hcode, fun _ => einfoWord_opc _ _ _⟩
      · exact ⟨fun _ => heinfo, fun hne => absurd hcode hne⟩
  case read =>
    obtain ⟨r, hr⟩ := performs_read s off width rest
    rw [performs_unique hread hr]
    exact ⟨rfl, rfl⟩
  case write =>
    obtain ⟨u, hu, hrecord⟩ := performs_write_record s hcmd v rest
    rwa [performs_unique hwrite hu]

end Sys2Proof.Machine
end

section
/-! PROOFS. The command word: the encoder and the decoder are inverse to each other (30_encoding.md R91 to R95), and words the spec writes
out. -/

namespace Sys2Proof.Machine

/-! ### The fields of the command a row builds -/

/-- A row builds a well-formed command from fields whose index fits. -/
theorem wf_make {f : Fields} (h : f.idx < 4096) : ∀ r ∈ opcodeTable, (r.make f).wf = true := by
  have hfits : idxFits f.idx = true := idxFits_of_lt h
  simp [opcodeTable, Instr.wf, hfits]

/-- The command a row builds has the fields it was built from, when those the row's format does not use are zero. -/
theorem fields_make {f : Fields} : ∀ r ∈ opcodeTable, r.opc = f.opc → (∀ o ∈ r.format.mustBeZero, f.operand o = 0) →
    (r.make f).fields = f := by
  obtain ⟨opc, fd, fa, fb, idx⟩ := f
  simp +contextual [opcodeTable, Instr.fields, Instr.opcode, Format.mustBeZero, Fields.operand]

/-- The index field of a word is 12 bits wide. -/
theorem fieldsOf_idx_lt (w : Word) : (fieldsOf w).idx < 4096 := by
  rw [fieldsOf_idx]
  exact Nat.mod_lt _ (by decide)

/-! ### The statements -/

/-- Settles O2: the fields of the encoding are the command's, and the command's row builds it back from them. -/
theorem decodeOfEncode : Obligations.DecodeOfEncode := by
  unfold Obligations.DecodeOfEncode
  intro i hwf
  exact decode_encode hwf

/-- Settles O3: the command has the word's own fields, and a word is the packing of its fields. -/
theorem encodeOfDecode : Obligations.EncodeOfDecode := by
  unfold Obligations.EncodeOfDecode
  intro w i hdec
  obtain ⟨r, hr, hopc, hzero, rfl⟩ := decode_ok hdec
  refine ⟨wf_make (fieldsOf_idx_lt w) r hr, ?_⟩
  rw [encode, fields_make r hr hopc hzero, packFields_fieldsOf]

/-- Settles O1: the legal words are the encodings of their commands; the illegal ones are evaluated. -/
theorem decodeOfSpecWords : Obligations.DecodeOfSpecWords := by
  unfold Obligations.DecodeOfSpecWords
  exact ⟨decode_encode (i := .nop) rfl, decode_encode (i := .madd 3 1 2) rfl, decode_encode (i := .minv 4 3) rfl,
    decode_encode (i := .ldf 1) rfl, decode_encode (i := .stf 3) rfl, decode_encode (i := .mvfy 1 4) rfl,
    decode_encode (i := .mvtc 2 0) rfl, decode_encode (i := .setx 254) rfl, decode_encode (i := .split) rfl,
    decode_encode (i := .lbasis 2 1) rfl, decode_encode (i := .zero) rfl, by decide, by decide⟩

end Sys2Proof.Machine
end

section
/-! PROOFS. One step (20_memory.md R61, R67 to R70): it always answers, it takes the oldest move, a transaction has one response, no step
changes the configuration, a word written to `CMD` runs its command, and `ZERO` and a reset leave the reset state. -/

namespace Sys2Proof.Machine

open Sys2Proof.Claims

/-- An outcome is at most one next state. -/
theorem next_unique {o : Host.Outcome State Fault Refusal} {s t : State} (hs : o = .next s) (ht : o = .next t) : s = t :=
  Host.Outcome.next.inj (hs.symm.trans ht)

/-! ### What a move can do -/

/-- Every command answers a next state. -/
theorem exec_answers (i : Instr) (s : State) : ∃ t, exec i s = .next t := by
  cases h : failureOf i s with
  | none => exact ⟨_, exec_of_none h⟩
  | some f => exact ⟨_, exec_of_some h⟩

/-- A read gives one response, a value or `ERROR`, and changes nothing else (20_memory.md R62, R65). -/
theorem readTransaction_cases (s : State) (off width : Nat) :
    ∃ r, s.readTransaction off width = s.respond r ∧ r ≠ .okay := by
  unfold State.readTransaction
  split
  · exact ⟨_, rfl, Response.noConfusion⟩
  · exact ⟨_, rfl, Response.noConfusion⟩

/-- Everything one move can do: a read is answered; a write is refused, issues its word, or replaces a register; a reset clears. -/
theorem perform_cases (s : State) (m : HostMove) :
    (∃ off width r, m = .read off width ∧ r ≠ .okay ∧ s.perform m = .next (s.respond r))
    ∨ (∃ off width v, m = .write off width v ∧
        (s.perform m = .next (s.respond .error)
        ∨ (∃ u, issueCommand v s = .next u ∧ s.perform m = .next (u.respond .okay))
        ∨ (∃ w u, s.setWord w v = some u ∧ s.perform m = .next (u.respond .okay))))
    ∨ (m = .reset ∧ s.perform m = .next s.clear) := by
  cases m with
  | read off width =>
    obtain ⟨r, hread, hr⟩ := readTransaction_cases s off width
    exact .inl ⟨off, width, r, rfl, hr, congrArg _ hread⟩
  | write off width v => exact .inr (.inl ⟨off, width, v, rfl, writeTransaction_cases s off width v⟩)
  | reset => exact .inr (.inr ⟨rfl, perform_reset s⟩)

/-- Every move answers a next state, of the same configuration and with the same waiting moves. -/
theorem perform_next (s : State) (m : HostMove) : ∃ t, s.perform m = .next t ∧ t.port = s.port ∧ t.cfg = s.cfg := by
  obtain ⟨_, _, r, -, -, h⟩ | ⟨_, _, v, -, h | ⟨u, hu, h⟩ | ⟨w, u, hu, h⟩⟩ | ⟨-, h⟩ := perform_cases s m
  · exact ⟨_, h, rfl, rfl⟩
  · exact ⟨_, h, rfl, rfl⟩
  · obtain ⟨t, ht, hport, -, hcfg⟩ := issueCommand_next v s
    obtain rfl : t = u := next_unique ht hu
    exact ⟨_, h, hport, hcfg⟩
  · obtain ⟨hport, -, hcfg⟩ := setWord_keeps hu
    exact ⟨_, h, hport, hcfg⟩
  · exact ⟨_, h, rfl, rfl⟩

/-- The responses a move adds: one to a transaction, of its kind, and none to a reset (20_memory.md R61). -/
def Answered (m : HostMove) (s t : State) : Prop :=
  match m with
  | .read _ _ => ∃ r, t.responses = s.responses ++ [r] ∧ r ≠ .okay
  | .write _ _ _ => ∃ r, t.responses = s.responses ++ [r] ∧ (r = .okay ∨ r = .error)
  | .reset => t.responses = s.responses

theorem perform_answered {s t : State} {m : HostMove} (ht : s.perform m = .next t) : Answered m s t := by
  obtain ⟨_, _, r, rfl, hr, h⟩ | ⟨_, _, v, rfl, h | ⟨u, hu, h⟩ | ⟨w, u, hu, h⟩⟩ | ⟨rfl, h⟩ := perform_cases s m <;>
    obtain rfl := next_unique ht h
  · exact ⟨r, rfl, hr⟩
  · exact ⟨.error, rfl, .inr rfl⟩
  · obtain ⟨t, ht, -, hresp, -⟩ := issueCommand_next v s
    obtain rfl : t = u := next_unique ht hu
    exact ⟨.okay, by rw [State.respond_responses, hresp], .inl rfl⟩
  · obtain ⟨-, hresp, -⟩ := setWord_keeps hu
    exact ⟨.okay, by rw [State.respond_responses, hresp], .inl rfl⟩
  · exact rfl

/-! ### What a step can do -/

/-- A step is idle, or it performs the oldest waiting move on the state from whose port it is taken (20_memory.md R69). -/
theorem step_cases {s t : State} (h : step s = .next t) :
    (s.port = [] ∧ t = s) ∨ ∃ m rest, s.port = m :: rest ∧ State.perform { s with port := rest } m = .next t := by
  cases hport : s.port with
  | nil => exact .inl ⟨rfl, next_unique h (step_idle hport)⟩
  | cons m rest => exact .inr ⟨m, rest, rfl, (step_move hport).symm.trans h⟩

/-- Every step answers a next state of the same configuration. -/
theorem step_next (s : State) : ∃ t, step s = .next t ∧ t.cfg = s.cfg := by
  cases hport : s.port with
  | nil => exact ⟨s, step_idle hport, rfl⟩
  | cons m rest =>
    obtain ⟨t, ht, -, hcfg⟩ := perform_next { s with port := rest } m
    exact ⟨t, (step_move hport).trans ht, hcfg⟩

/-- A step that takes a decoding word written to `CMD` is the word's command, answered `OKAY` (20_memory.md R67). -/
theorem step_command {s : State} {w : Word} {i : Instr} {rest : List HostMove}
    (hport : s.port = .write PortWord.cmd.offset 4 w :: rest) (hdec : decode w = .ok i) :
    step s = mapNext (fun t => t.respond .okay) (exec i { s with port := rest }) := by
  rw [step_move hport, perform_write_cmd, issueCommand_ok hdec]

/-- A word of the opcode table that decodes, as the word of the write that is placed. -/
theorem decode_of_decodeTableWord {nbits w : Nat} {i : Instr} (h : decodeTableWord nbits w = some i) :
    decode (BitVec.ofNat 32 (w % 2 ^ nbits)) = .ok i := by
  unfold decodeTableWord at h
  split at h
  · rename_i j hdec
    rw [hdec, Option.some.inj h]
  · cases h

/-! ### The statements -/

/-- Settles O8: each command fails a test or completes, and each move is answered. -/
theorem everyStepAnswers : Obligations.EveryStepAnswers := by
  unfold Obligations.EveryStepAnswers
  refine ⟨fun s => ?_, exec_answers⟩
  obtain ⟨t, ht, -⟩ := step_next s
  exact ⟨t, ht⟩

/-- Settles O10: no move touches the moves that wait behind it, and each adds the responses of its kind. -/
theorem eachTransactionHasOneResponse : Obligations.EachTransactionHasOneResponse := by
  unfold Obligations.EachTransactionHasOneResponse
  intro s t m rest hport hstep
  rw [step_move hport] at hstep
  obtain ⟨u, hu, hrest, -⟩ := perform_next { s with port := rest } m
  obtain rfl : u = t := next_unique hu hstep
  refine ⟨hrest, ?_⟩
  have hanswered := perform_answered hstep
  cases m with
  | read | write | reset => exact hanswered

/-- Settles O11: the one outcome of a step has the step's configuration. -/
theorem configurationIsConstant : Obligations.ConfigurationIsConstant := by
  unfold Obligations.ConfigurationIsConstant
  intro s t hstep
  obtain ⟨u, hu, hcfg⟩ := step_next s
  rwa [next_unique hstep hu]

/-- Settles O6: the move is the write to `CMD`, and the response is added to a next state only. -/
theorem stepRunsTheDecodedCommand : Obligations.StepRunsTheDecodedCommand := by
  unfold Obligations.StepRunsTheDecodedCommand
  intro s w i rest hport hdec
  rw [step_command hport hdec]
  cases exec i { s with port := rest } with
  | next | fault | refused => rfl

/-- Settles O7: the placed word is the oldest waiting write to `CMD`, and the moves behind it are the state's own. -/
theorem placedWordRunsNext : Obligations.PlacedWordRunsNext := by
  unfold Obligations.PlacedWordRunsNext
  intro s t w i hdec hexec
  have hplaced : (s.withFetchWord 32 w).port = .write PortWord.cmd.offset 4 (BitVec.ofNat 32 (w % 2 ^ 32)) :: s.port := rfl
  rw [step_command hplaced (decode_of_decodeTableWord hdec)]
  exact congrArg _ hexec

/-- Settles O9: with an empty port a step is idle. -/
theorem nothingHappensUnasked : Obligations.NothingHappensUnasked := by
  unfold Obligations.NothingHappensUnasked
  exact fun s hport => step_idle hport

/-- Settles O19: `ZERO` has no test and clears, as a reset does, and a cleared state is the reset state with the host's two lists. -/
theorem zeroEqualsReset : Obligations.ZeroEqualsReset := by
  unfold Obligations.ZeroEqualsReset
  exact ⟨decode_encode (i := .zero) rfl,
    fun s => ⟨s.clear.succeed, exec_of_none rfl, rfl, rfl, rfl, fun rest => performs_reset s rest⟩⟩

end Sys2Proof.Machine
end

section
/-! PROOFS. The invariant (10_state.md R20, R22; 60_exceptions.md R241, R246): it holds at reset, every command and every move keeps it, so
every reachable state meets it. -/

namespace Sys2Proof.Machine

open Sys2Proof.Claims

/-! ### The updates that touch nothing the invariant speaks of -/

section
variable {s : State} (h : s.Inv)
include h

theorem State.Inv.respond (r : Response) : (s.respond r).Inv :=
  h.congr rfl rfl rfl rfl rfl h.code_produced h.einfo_clear

theorem State.Inv.withPort (moves : List HostMove) : State.Inv { s with port := moves } :=
  h.congr rfl rfl rfl rfl rfl h.code_produced h.einfo_clear

theorem State.Inv.withOUT (B : Bytes32) : State.Inv { s with OUT := B } :=
  h.congr rfl rfl rfl rfl rfl h.code_produced h.einfo_clear

theorem State.Inv.withXOUT (x : Word) : State.Inv { s with XOUT := x } :=
  h.congr rfl rfl rfl rfl rfl h.code_produced h.einfo_clear

theorem State.Inv.succeed : s.succeed.Inv :=
  h.congr rfl rfl rfl rfl rfl (by decide : (0 : Byte) ∈ producedCodes) fun _ => rfl

/-- A failure keeps the invariant when its code is one the block produces and is not that of success. -/
theorem State.Inv.fail {opc : Byte} {f : Failure} (hcode : f.code.number ∈ producedCodes) (hne : f.code.number ≠ 0) :
    (s.fail opc f).Inv :=
  h.congr rfl rfl rfl rfl rfl hcode fun h0 => absurd h0 hne

/-- A write to a staging register keeps the invariant. -/
theorem State.Inv.setWord {t : State} {w : PortWord} {v : Word} (ht : s.setWord w v = some t) : t.Inv := by
  cases w <;> cases ht <;> exact h.congr rfl rfl rfl rfl rfl h.code_produced h.einfo_clear

end

/-! ### The memories -/

/-- What the invariant says of a memory: it is canonical and lists no entry at or above NMAX (10_state.md R20). -/
def Memory.OK {α : Type} [OfNat α 0] (cfg : Config) (m : Memory α) : Prop := Memory.wf m ∧ Memory.within m cfg.NMAX

/-- What the invariant says of a memory's entries: they are field elements (10_state.md R22). -/
def Memory.Elements (cfg : Config) (m : Memory Nat) : Prop := ∀ i, m.read i < cfg.P

section
variable {α : Type} [OfNat α 0] {cfg : Config}

theorem Memory.OK.nil : Memory.OK cfg ([] : Memory α) := ⟨Memory.wf_nil, nofun⟩

variable [DecidableEq α]

theorem Memory.OK.write {m : Memory α} (h : Memory.OK cfg m) {i : Nat} (hi : i < cfg.NMAX) (v : α) : Memory.OK cfg (m.write i v) :=
  ⟨Memory.write_wf h.1 i v, Memory.write_within h.2 hi v⟩

theorem Memory.OK.writeRange {m : Memory α} (h : Memory.OK cfg m) {n : Nat} (hn : n ≤ cfg.NMAX) (f : Nat → α) :
    Memory.OK cfg (m.writeRange n f) :=
  ⟨Memory.writeRange_wf h.1 n f, Memory.writeRange_within h.2 hn f⟩

theorem Memory.Elements.nil : Memory.Elements cfg [] := fun _ => cfg.ok.prime.pos

theorem Memory.Elements.write {m : Memory Nat} (h : Memory.Elements cfg m) (hok : Memory.OK cfg m) (i : Nat) {v : Nat} (hv : v < cfg.P) :
    Memory.Elements cfg (m.write i v) := by
  intro j
  rw [Memory.read_write hok.1]
  split
  · exact hv
  · exact h j

theorem Memory.Elements.writeRange {m : Memory Nat} (h : Memory.Elements cfg m) (hok : Memory.OK cfg m) (n : Nat) {f : Nat → Nat}
    (hf : ∀ k, f k < cfg.P) : Memory.Elements cfg (m.writeRange n f) := by
  intro j
  rw [Memory.read_writeRange hok.1]
  split
  · exact hf j
  · exact h j

end

section
variable {s : State} (h : s.Inv)
include h

theorem State.Inv.coef_ok : Memory.OK s.cfg s.COEF := ⟨h.coef_wf, h.coef_within⟩

theorem State.Inv.sx_ok : Memory.OK s.cfg s.SX := ⟨h.sx_wf, h.sx_within⟩

theorem State.Inv.sy_ok : Memory.OK s.cfg s.SY := ⟨h.sy_wf, h.sy_within⟩

/-- The memories may be replaced by others the invariant admits. -/
theorem State.Inv.withMemories {coef sy : Memory Nat} {sx : Memory Word} (hcoef : Memory.OK s.cfg coef)
    (hcoefs : Memory.Elements s.cfg coef) (hsx : Memory.OK s.cfg sx) (hsy : Memory.OK s.cfg sy) (hshares : Memory.Elements s.cfg sy) :
    State.Inv { s with COEF := coef, SX := sx, SY := sy } :=
  { h with
    coef_lt := hcoefs, coef_wf := hcoef.1, coef_within := hcoef.2
    sx_wf := hsx.1, sx_within := hsx.2
    sy_lt := hshares, sy_wf := hsy.1, sy_within := hsy.2 }

end

/-! ### Reset -/

/-- A state whose registers are 0, whose memories are empty and whose code is 0 meets the invariant. -/
theorem State.inv_clear (s : State) : s.clear.Inv where
  field_lt r := (s.readF_clear r).trans_lt s.cfg.ok.prime.pos
  coef_lt _ := s.cfg.ok.prime.pos
  sy_lt _ := s.cfg.ok.prime.pos
  coef_wf := Memory.wf_nil
  sx_wf := Memory.wf_nil
  sy_wf := Memory.wf_nil
  coef_within := nofun
  sx_within := nofun
  sy_within := nofun
  code_produced := (by decide : (0 : Byte) ∈ producedCodes)
  einfo_clear _ := rfl

/-- The reset state is the cleared one. -/
theorem State.inv_resetFor (cfg : Config) : (State.resetFor cfg).Inv := State.inv_clear (State.resetFor cfg)

/-! ### Commands -/

/-- The codes of the table's commands are codes the block produces. -/
theorem codesRaisedBy_subset (i : Instr) : codesRaisedBy i ⊆ producedCodes := by
  cases i <;> simp [codesRaisedBy, producedCodes]

/-- A passing index check bounds the index. -/
theorem State.lt_of_indexFailure {i : Nat} {s : State} (h : s.indexFailure i = none) : i < s.cfg.NMAX :=
  Nat.not_le.1 (raiseIf_eq_none.1 h)

/-- A successful command keeps the invariant: what it writes to a register or a memory is a field element, at an index below NMAX. -/
theorem State.Inv.effectOf_succeed {s : State} (h : s.Inv) {i : Instr} (hpass : failureOf i s = none) : (effectOf i s).succeed.Inv := by
  have hP := s.cfg.ok.prime.pos
  cases i with
  | nop => exact h.succeed
  | madd d a b => exact h.writeF_succeed d _ (fadd_lt hP _ _)
  | msub d a b => exact h.writeF_succeed d _ (fsub_lt hP _ _)
  | mmul d a b => exact h.writeF_succeed d _ (fmul_lt hP _ _)
  | minv d a => exact h.writeF_succeed d _ (finv_lt hP _)
  | mdiv d a b => exact h.writeF_succeed d _ (fdiv_lt hP _ _)
  | ldf d => exact h.writeF_succeed d _ (norm_lt hP _ _)
  | mvfy d i => exact h.writeF_succeed d _ (h.sy_lt i)
  | peval d => exact h.writeF_succeed d _ (horner_lt hP _ _ _)
  | lbasis d i => exact h.writeF_succeed d _ (basis_lt hP _ _ _)
  | combine d => exact h.writeF_succeed d _ (combineSum_lt hP _ _ _)
  | stf a =>
    rw [effectOf_stf]
    exact (h.withOUT _).succeed
  | getx i => exact (h.withXOUT _).succeed
  | mvtc i a =>
    have hi := State.lt_of_indexFailure hpass
    exact (h.withMemories (h.coef_ok.write hi _) (Memory.Elements.write h.coef_lt h.coef_ok i (h.field_lt a)) h.sx_ok
      h.sy_ok h.sy_lt).succeed
  | mvty i a =>
    have hi := State.lt_of_indexFailure hpass
    exact (h.withMemories h.coef_ok h.coef_lt h.sx_ok (h.sy_ok.write hi _)
      (Memory.Elements.write h.sy_lt h.sy_ok i (h.field_lt a))).succeed
  | setx i =>
    have hi := State.lt_of_indexFailure hpass
    exact (h.withMemories h.coef_ok h.coef_lt (h.sx_ok.write hi _) h.sy_ok h.sy_lt).succeed
  | split =>
    obtain ⟨-, -, hN⟩ := splitFailure_eq_none.1 hpass
    exact (h.withMemories Memory.OK.nil Memory.Elements.nil (h.sx_ok.writeRange hN _) (h.sy_ok.writeRange hN _)
      (Memory.Elements.writeRange h.sy_lt h.sy_ok _ fun _ => horner_lt hP _ _ _)).succeed
  | zero => exact s.inv_clear.succeed

/-- Every command keeps the invariant. -/
theorem State.Inv.exec {s t : State} (h : s.Inv) {i : Instr} (ht : exec i s = .next t) : t.Inv := by
  obtain ⟨f, hf, rfl⟩ | ⟨hpass, rfl⟩ := exec_cases ht
  · have hcode := failureOf_raisesOnly s i f hf
    exact h.fail (codesRaisedBy_subset i hcode) fun h0 => zero_notMem_codesRaisedBy i (h0 ▸ hcode)
  · exact h.effectOf_succeed hpass

/-- Every word written to `CMD` keeps the invariant. -/
theorem State.Inv.issueCommand {s t : State} (h : s.Inv) {w : Word} (ht : issueCommand w s = .next t) : t.Inv := by
  cases hdec : decode w with
  | ok i => exact h.exec ((issueCommand_ok hdec s).symm.trans ht)
  | error e =>
    obtain rfl := next_unique (issueCommand_error hdec s) ht
    exact h.fail (by decide) (by decide)

/-! ### Moves and steps -/

/-- Every move keeps the invariant. -/
theorem State.Inv.perform {s t : State} (h : s.Inv) {m : HostMove} (ht : s.perform m = .next t) : t.Inv := by
  obtain ⟨_, _, r, -, -, hm⟩ | ⟨_, _, v, -, hm | ⟨u, hu, hm⟩ | ⟨w, u, hu, hm⟩⟩ | ⟨-, hm⟩ := perform_cases s m <;>
    obtain rfl := next_unique ht hm
  · exact h.respond r
  · exact h.respond .error
  · exact (h.issueCommand hu).respond .okay
  · exact (h.setWord hu).respond .okay
  · exact s.inv_clear

/-- Every step keeps the invariant. -/
theorem State.Inv.step {s t : State} (h : s.Inv) (ht : step s = .next t) : t.Inv := by
  obtain ⟨-, rfl⟩ | ⟨m, rest, -, hm⟩ := step_cases ht
  · exact h
  · exact (h.withPort rest).perform hm

/-- Every reachable state meets the invariant. -/
theorem State.Reachable.inv {s : State} (h : s.Reachable) : s.Inv := by
  induction h with
  | reset cfg => exact State.inv_resetFor cfg
  | offer moves _ ih => exact ih.withPort _
  | step _ ht ih => exact ih.step ht

/-- A state that meets the invariant has a safe next step. -/
theorem State.Inv.safeStep {s : State} (h : s.Inv) : s.SafeStep := by
  obtain ⟨t, ht, -⟩ := step_next s
  exact ⟨t, ht, h.step ht⟩

/-! ### The statements -/

/-- Settles O12: a step is idle or performs a move, and each kind of move keeps the invariant. -/
theorem stepKeepsTheInvariant : Obligations.StepKeepsTheInvariant := by
  unfold Obligations.StepKeepsTheInvariant
  exact fun s t hinv hstep => hinv.step hstep

/-- Settles O13: everything is 0 or empty after a reset, and P is positive. -/
theorem resetMeetsTheInvariant : Obligations.ResetMeetsTheInvariant := by
  unfold Obligations.ResetMeetsTheInvariant
  exact ⟨State.inv_resetFor Config.default, State.inv_resetFor⟩

/-- Settles O14: by induction on how the state was reached; every step answers. -/
theorem reachableStatesAreSafe : Obligations.ReachableStatesAreSafe := by
  unfold Obligations.ReachableStatesAreSafe
  exact fun s hreach => ⟨hreach.inv, hreach.inv.safeStep⟩

end Sys2Proof.Machine
end

section
/-! PROOFS. What commands may write and raise (10_state.md R20, R26, R40; 60_exceptions.md R241): the codes of each command, the state each
kind of command writes, and that COEF enters no outcome but those of PEVAL and SPLIT. -/

namespace Sys2Proof.Machine

open Sys2Proof.Claims

/-! ### Which effects write which piece of state -/

section
variable {i : Instr} {s : State}

/-- The commands that write a field register (10_state.md R20). -/
theorem writes_F {r : Reg} (h : (effectOf i s).readF r ≠ s.readF r) :
    i = .zero ∨ (∃ d a b, i = .madd d a b ∨ i = .msub d a b ∨ i = .mmul d a b ∨ i = .mdiv d a b)
      ∨ (∃ d a, i = .minv d a) ∨ (∃ d, i = .ldf d ∨ i = .peval d ∨ i = .combine d) ∨ ∃ d j, i = .mvfy d j ∨ i = .lbasis d j := by
  cases i with
  | zero => exact .inl rfl
  | madd d a b | msub d a b | mmul d a b | mdiv d a b => exact .inr (.inl ⟨d, a, b, by simp⟩)
  | minv d a => exact .inr (.inr (.inl ⟨d, a, rfl⟩))
  | ldf d | peval d | combine d => exact .inr (.inr (.inr (.inl ⟨d, by simp⟩)))
  | mvfy d j | lbasis d j => exact .inr (.inr (.inr (.inr ⟨d, j, by simp⟩)))
  | nop | stf | mvtc | mvty | setx | getx | split => simp [effectOf, State.readF] at h

theorem writes_COEF (h : (effectOf i s).COEF ≠ s.COEF) : i = .zero ∨ i = .split ∨ ∃ j a, i = .mvtc j a := by
  cases i with
  | zero => exact .inl rfl
  | split => exact .inr (.inl rfl)
  | mvtc j a => exact .inr (.inr ⟨j, a, rfl⟩)
  | _ => simp [effectOf] at h

theorem writes_SX (h : (effectOf i s).SX ≠ s.SX) : i = .zero ∨ i = .split ∨ ∃ j, i = .setx j := by
  cases i with
  | zero => exact .inl rfl
  | split => exact .inr (.inl rfl)
  | setx j => exact .inr (.inr ⟨j, rfl⟩)
  | _ => simp [effectOf] at h

theorem writes_SY (h : (effectOf i s).SY ≠ s.SY) : i = .zero ∨ i = .split ∨ ∃ j a, i = .mvty j a := by
  cases i with
  | zero => exact .inl rfl
  | split => exact .inr (.inl rfl)
  | mvty j a => exact .inr (.inr ⟨j, a, rfl⟩)
  | _ => simp [effectOf] at h

theorem writes_OUT (h : (effectOf i s).OUT ≠ s.OUT) : i = .zero ∨ ∃ a, i = .stf a := by
  cases i with
  | zero => exact .inl rfl
  | stf a => exact .inr ⟨a, rfl⟩
  | _ => simp [effectOf] at h

theorem writes_XOUT (h : (effectOf i s).XOUT ≠ s.XOUT) : i = .zero ∨ ∃ j, i = .getx j := by
  cases i with
  | zero => exact .inl rfl
  | getx j => exact .inr ⟨j, rfl⟩
  | _ => simp [effectOf] at h

/-- No command but `ZERO` writes a staging register. -/
theorem effectOf_staging (h : i ≠ .zero) : (effectOf i s).T = s.T ∧ (effectOf i s).N = s.N ∧ (effectOf i s).K = s.K
    ∧ (effectOf i s).XIN = s.XIN ∧ (effectOf i s).INS = s.INS ∧ (effectOf i s).IN = s.IN := by
  cases i with
  | zero => exact absurd rfl h
  | _ => simp [effectOf]

end

/-! ### COEF and the outcomes that do not read it -/

/-- The two outcomes are next states that differ at most in COEF. -/
def AlikeButCoef (o o' : Host.Outcome State Fault Refusal) : Prop := ∃ t c, o = .next t ∧ o' = .next { t with COEF := c }

/-- Two states that differ at most in COEF still do after the same response. -/
theorem AlikeButCoef.respond {o o' : Host.Outcome State Fault Refusal} (h : AlikeButCoef o o') (r : Response) :
    AlikeButCoef (mapNext (fun t => t.respond r) o) (mapNext (fun t => t.respond r) o') := by
  obtain ⟨t, c, rfl, rfl⟩ := h
  exact ⟨t.respond r, c, rfl, rfl⟩

section
variable (s : State) (c : Memory Nat)

/-- No test of a command looks at COEF. -/
theorem failureOf_coef (i : Instr) : failureOf i { s with COEF := c } = failureOf i s := by
  cases i <;> rfl

/-- What a command other than `PEVAL` and `SPLIT` writes outside COEF does not depend on COEF. -/
theorem effectOf_coef {i : Instr} (hsplit : i ≠ .split) (hpeval : ∀ d, i ≠ .peval d) :
    ∃ c', effectOf i { s with COEF := c } = { effectOf i s with COEF := c' } := by
  cases i with
  | split => exact absurd rfl hsplit
  | peval d => exact absurd rfl (hpeval d)
  | mvtc j a => exact ⟨c.write j (s.readF a), rfl⟩
  | zero => exact ⟨[], rfl⟩
  | _ => exact ⟨c, rfl⟩

theorem exec_coef {i : Instr} (hsplit : i ≠ .split) (hpeval : ∀ d, i ≠ .peval d) :
    AlikeButCoef (exec i s) (exec i { s with COEF := c }) := by
  have htests := failureOf_coef s c i
  cases h : failureOf i s with
  | some f => exact ⟨_, c, exec_of_some h, exec_of_some (htests.trans h)⟩
  | none =>
    obtain ⟨c', heffect⟩ := effectOf_coef s c hsplit hpeval
    refine ⟨_, c', exec_of_none h, ?_⟩
    rw [exec_of_none (htests.trans h), heffect]
    rfl

theorem issueCommand_coef {w : Word} (hw : ∀ i, decode w = .ok i → i ≠ .split ∧ ∀ d, i ≠ .peval d) :
    AlikeButCoef (issueCommand w s) (issueCommand w { s with COEF := c }) := by
  cases hdec : decode w with
  | error e => exact ⟨_, c, issueCommand_error hdec s, issueCommand_error hdec _⟩
  | ok i =>
    obtain ⟨hsplit, hpeval⟩ := hw i hdec
    rw [issueCommand_ok hdec, issueCommand_ok hdec]
    exact exec_coef s c hsplit hpeval

/-- No word of the register map shows COEF. -/
theorem wordValue_coef (w : PortWord) : State.wordValue { s with COEF := c } w = s.wordValue w := by
  cases w <;> rfl

/-- A write to a staging register neither reads nor writes COEF. -/
theorem setWord_coef (w : PortWord) (v : Word) :
    State.setWord { s with COEF := c } w v = (s.setWord w v).map fun t => { t with COEF := c } := by
  cases w <;> rfl

theorem readTransaction_coef (off width : Nat) :
    State.readTransaction { s with COEF := c } off width = { s.readTransaction off width with COEF := c } := by
  have hvalue : (portWordAt off width).bind (State.wordValue { s with COEF := c }) = (portWordAt off width).bind s.wordValue :=
    congrArg _ (funext (wordValue_coef s c))
  unfold State.readTransaction
  rw [hvalue]
  split <;> rfl

/-- A write that issues neither `PEVAL` nor `SPLIT` answers alike whatever COEF holds. -/
theorem perform_write_coef {off width : Nat} {v : Word}
    (hcmd : off = PortWord.cmd.offset → width = 4 → ∀ i, decode v = .ok i → i ≠ .split ∧ ∀ d, i ≠ .peval d) :
    AlikeButCoef (s.perform (.write off width v)) (State.perform { s with COEF := c } (.write off width v)) := by
  cases hword : portWordAt off width with
  | none => exact ⟨_, c, perform_write_error hword v, perform_write_error hword v⟩
  | some w =>
    obtain ⟨rfl, rfl⟩ := portWordAt_eq_some.1 hword
    by_cases hw : w = .cmd
    · subst hw
      rw [perform_write_cmd, perform_write_cmd]
      exact (issueCommand_coef s c (hcmd rfl rfl)).respond .okay
    · have hset := setWord_coef s c w v
      cases h : s.setWord w v with
      | some t => exact ⟨_, c, perform_write_ok h, perform_write_ok (by rw [hset, h, Option.map_some])⟩
      | none =>
        have hro := readOnly_of_setWord_none hw h
        exact ⟨_, c, perform_write_readOnly hro v, perform_write_readOnly hro v⟩

end

/-! ### The statements -/

/-- Settles O22: a failure's code is one its tests raise, and a success leaves 0. -/
theorem commandsRaiseOnlyTheirCodes : Obligations.CommandsRaiseOnlyTheirCodes := by
  unfold Obligations.CommandsRaiseOnlyTheirCodes
  intro i s t hexec
  obtain ⟨f, hf, rfl⟩ | ⟨-, rfl⟩ := exec_cases hexec
  · exact .inr (failureOf_raisesOnly s i f hf)
  · exact .inl rfl

/-- Settles O23: a failure writes none of these, and a success what the command's effect writes. -/
theorem stateIsWrittenOnlyByItsCommands : Obligations.StateIsWrittenOnlyByItsCommands := by
  unfold Obligations.StateIsWrittenOnlyByItsCommands
  intro i s t hexec
  obtain ⟨f, -, rfl⟩ | ⟨-, rfl⟩ := exec_cases hexec
  case inl => simp
  case inr =>
    refine ⟨fun ⟨r, hr⟩ => writes_F hr, writes_COEF, writes_SX, writes_SY, writes_OUT, writes_XOUT, fun hstaging => ?_⟩
    by_contra hne
    obtain ⟨hT, hN, hK, hXIN, hINS, hIN⟩ := effectOf_staging (s := s) hne
    simp [hT, hN, hK, hXIN, hINS, hIN] at hstaging

/-- Settles O24: a read, a reset, a write that is no command and every other command answer alike whatever COEF holds. -/
theorem coefIsHidden : Obligations.CoefIsHidden := by
  unfold Obligations.CoefIsHidden
  intro s m rest c hmove
  have halike : AlikeButCoef (State.perform { s with port := rest } m) (State.perform { s with COEF := c, port := rest } m) := by
    cases m with
    | read off width =>
      exact ⟨_, c, rfl, congrArg Host.Outcome.next (readTransaction_coef { s with port := rest } c off width)⟩
    | write off width v =>
      refine perform_write_coef { s with port := rest } c ?_
      rintro rfl rfl i hdec
      exact hmove v i rfl hdec
    | reset => exact ⟨_, [], rfl, rfl⟩
  obtain ⟨t, c', ht, ht'⟩ := halike
  exact ⟨t, c', (step_move rfl).trans ht, (step_move rfl).trans ht'⟩

end Sys2Proof.Machine
end

section
/-! PROOFS. The byte boundary and back (41_data_movement.md R156, R158), and the ten transactions of LOADI (30_encoding.md R111). -/

namespace Sys2Proof.Machine

open Sys2Proof.Claims

/-! ### LDF and STF after each other -/

/-- The value of 32 bytes is below 2^256. -/
theorem bytesValue_lt (B : Bytes32) : bytesValue B < 2 ^ 256 := by
  rw [bytesValue_eq]
  exact bigEndian_lt B

/-- The bytes of the value of 32 bytes are those bytes. -/
theorem bytesBE_bytesValue (B : Bytes32) : bytesBE (bytesValue B) = B := by
  rw [bytesValue_eq, bytesBE_bigEndian]

/-- With `INS = 0` the staged integer is the residue of the bytes' value. -/
theorem State.staged_of_ins_zero {s : State} (h : s.INS = 0) : s.staged = bytesValue s.IN % s.cfg.P := by
  rw [State.staged_eq, if_pos h]

/-- The outcome of `LDF` (41_data_movement.md R155). -/
theorem exec_ldf (d : Reg) (s : State) : exec (.ldf d) s = .next (s.writeF d s.staged).succeed := exec_of_none rfl

/-- `LDF` with `INS = 0` writes the residue of the bytes' value. -/
theorem writesField_ldf {d : Reg} {s : State} {v : Nat} (hins : s.INS = 0) (hv : bytesValue s.IN % s.cfg.P = v) :
    WritesField (.ldf d) s d v :=
  writesField_of_effect rfl (congrArg (s.writeF d) ((State.staged_of_ins_zero hins).trans hv))

/-- The outcome of `STF` on a register below 2^256 (41_data_movement.md R157). -/
theorem exec_stf {a : Reg} {s : State} (h : s.readF a < 2 ^ 256) :
    exec (.stf a) s = .next (State.succeed { s with OUT := bytesBE (s.readF a) }) := by
  have hpass : failureOf (.stf a) s = none := raiseIf_neg (Nat.not_le.2 h) _
  rw [exec_of_none hpass, effectOf_stf]

/-! ### Running a script -/

/-- A script's first move is a step that finds it at the front of the port. -/
theorem runMoves_cons {s t : State} {m : HostMove} (h : Performs s m s.port t) (ms : Script) : runMoves (m :: ms) s = runMoves ms t := by
  have hstep : step { s with port := m :: s.port } = .next t := h
  rw [runMoves, hstep, andThen]

/-- A script in two parts goes on from where the first part leads. -/
theorem runMoves_append {s t : State} {ms : Script} (ms' : Script) (h : runMoves ms s = .next t) :
    runMoves (ms ++ ms') s = runMoves ms' t := by
  induction ms generalizing s with
  | nil => rw [List.nil_append, Host.Outcome.next.inj h]
  | cons m ms ih =>
    rw [runMoves] at h
    rw [List.cons_append, runMoves]
    cases hstep : step { s with port := m :: s.port } with
    | next u =>
      rw [hstep] at h
      exact ih h
    | fault r | refused r => rw [hstep] at h; cases h

/-- A script that begins with a write to a staging register goes on from the register's new state, answered `OKAY`. -/
theorem runMoves_wr {s t : State} {w : PortWord} {v : Word} (ht : s.setWord w v = some t) (ms : Script) :
    runMoves (wr w v :: ms) s = runMoves ms (t.respond .okay) := by
  obtain ⟨hport, hresp, -⟩ := setWord_keeps ht
  have hstep := performs_write_register ht s.port
  rw [← hport, ← hresp] at hstep
  exact runMoves_cons (hport ▸ hstep) ms

/-! ### The eight writes of `WRB IN` -/

/-- The bytes after the words listed were replaced by those of `B`. -/
def replaceWords (B A : Bytes32) (l : List (Fin 8)) : Bytes32 := l.foldl (fun A k => setWordOfBytes A k (wordOfBytes B k)) A

/-- A byte of a word listed is the new one; any other byte is as before. -/
theorem replaceWords_getElem (B : Bytes32) (l : List (Fin 8)) (A : Bytes32) (j : Nat) (hj : j < 32) :
    (replaceWords B A l)[j] = if ∃ k ∈ l, j / 4 = k.val then B[j] else A[j] := by
  induction l generalizing A with
  | nil => simp [replaceWords]
  | cons k l ih =>
    have hstep : replaceWords B A (k :: l) = replaceWords B (setWordOfBytes A k (wordOfBytes B k)) l := rfl
    rw [hstep, ih, setWordOfBytes_getElem]
    by_cases hk : j / 4 = k.val <;> simp [hk]

/-- With all eight words replaced, the bytes are those of `B`. -/
theorem replaceWords_finRange (B A : Bytes32) : replaceWords B A (List.finRange 8) = B := by
  ext j hj
  have hlisted : ∃ k ∈ List.finRange 8, j / 4 = k.val := ⟨⟨j / 4, by omega⟩, List.mem_finRange _, rfl⟩
  rw [replaceWords_getElem, if_pos hlisted]

/-- Writing the words listed leaves their bytes in IN, one `OKAY` each, and changes nothing else. -/
theorem runMoves_writeWords (B : Bytes32) (l : List (Fin 8)) (s : State) :
    runMoves (l.map fun k => wr (.inW k) (wordOfBytes B k)) s =
      .next { s with IN := replaceWords B s.IN l, responses := s.responses ++ List.replicate l.length .okay } := by
  induction l generalizing s with
  | nil => simp [runMoves, replaceWords]
  | cons k l ih =>
    rw [List.map_cons, runMoves_wr rfl, ih]
    simp [replaceWords, List.replicate_succ]

/-- `WRB IN, h` leaves the bytes in IN with eight `OKAY` (20_memory.md R66). -/
theorem runMoves_wrb (B : Bytes32) (s : State) :
    runMoves (wrb B) s = .next { s with IN := B, responses := s.responses ++ List.replicate 8 .okay } := by
  rw [wrb, runMoves_writeWords, replaceWords_finRange, List.length_finRange]

/-! ### LOADI -/

/-- A command's word written to `CMD` runs the command and is answered `OKAY`. -/
theorem performs_issue {i : Instr} {s t : State} {rest : List HostMove} (hwf : i.wf = true) (h : exec i { s with port := rest } = .next t) :
    Performs s (issue i) rest (t.respond .okay) :=
  performs_command_iff.2 ⟨t, (issueCommand_ok (decode_encode hwf) _).trans h, rfl⟩

/-- The first nine transactions of `LOADI` stage the sign and the magnitude. -/
theorem runMoves_stage (sign : Word) (B : Bytes32) (s : State) :
    runMoves ([wr .ins sign] ++ wrb B) s =
      .next { s with INS := sign.extractLsb' 0 1, IN := B, responses := s.responses ++ List.replicate 9 .okay } := by
  rw [List.singleton_append, runMoves_wr rfl, runMoves_wrb]
  simp [State.respond, List.replicate_succ]

/-- The tenth loads what was staged. -/
theorem runMoves_loadI (d : Reg) (sign : Word) (B : Bytes32) (s : State) :
    ∃ u, runMoves ([wr .ins sign] ++ wrb B) s = .next u
      ∧ runMoves (loadI d sign B) s = .next ((u.writeF d u.staged).succeed.respond .okay) :=
  ⟨_, runMoves_stage sign B s,
    (runMoves_append _ (runMoves_stage sign B s)).trans (runMoves_cons (performs_issue rfl (exec_ldf d _)) [])⟩

/-- The sign bit that `LOADI` stages. -/
theorem signBit_eq_zero (sign : Bool) : (if sign then 1 else 0 : Word).extractLsb' 0 1 = 0 ↔ sign = false := by
  cases sign <;> decide

/-! ### The statements -/

/-- Settles O32: the staged value is below 2^256, so below P; the register's bytes are then the bytes staged. -/
theorem bytesRoundTrip : Obligations.BytesRoundTrip := by
  unfold Obligations.BytesRoundTrip
  intro d s t hP hins hexec
  obtain rfl := next_unique hexec (exec_ldf d s)
  have hlt := bytesValue_lt s.IN
  have hloaded : State.readF (s.writeF d s.staged).succeed d = bytesValue s.IN := by
    rw [State.readF_succeed, State.readF_writeF_same, State.staged_of_ins_zero hins, Nat.mod_eq_of_lt (hlt.trans hP)]
  refine ⟨hloaded, _, exec_stf (hloaded.trans_lt hlt), rfl, ?_⟩
  rw [State.succeed_OUT, hloaded, bytesBE_bytesValue]

/-- Settles O33: the bytes stored have the register's value, which is its own residue. -/
theorem fieldElementRoundTrip : Obligations.FieldElementRoundTrip := by
  unfold Obligations.FieldElementRoundTrip
  intro a d s t hinv hlt hexec
  have hvalue := bytesValue_bytesBE hlt
  rw [exec_stf hlt] at hexec
  generalize bytesBE (s.readF a) = B at hexec hvalue
  obtain rfl := Host.Outcome.next.inj hexec
  exact writesField_ldf rfl ((congrArg (· % s.cfg.P) hvalue).trans (Nat.mod_eq_of_lt (hinv.field_lt a)))

/-- Settles O50: nine moves stage the integer and the tenth loads it; the value loaded is its residue, by its sign. -/
theorem loadImmediateSequence : Obligations.LoadImmediateSequence := by
  unfold Obligations.LoadImmediateSequence
  intro d sign B s
  obtain ⟨u, hstage, hload⟩ := runMoves_loadI d (if sign then 1 else 0) B s
  have hu := next_unique hstage (runMoves_stage _ B s)
  obtain ⟨hIN, hresp, hF⟩ : u.IN = B ∧ u.responses = s.responses ++ List.replicate 9 .okay ∧ ∀ r, u.readF r = s.readF r := by
    rw [hu]
    exact ⟨rfl, rfl, fun _ => rfl⟩
  have hvalue : u.staged = if sign then (s.cfg.P - bytesValue B % s.cfg.P) % s.cfg.P else bytesValue B % s.cfg.P := by
    rw [State.staged_eq, hu]
    simp only [signBit_eq_zero]
    cases sign <;> simp
  refine ⟨_, hload, hIN, rfl, ?value, fun r hr => ?others, ?responses⟩
  case value => rw [State.readF_respond, State.readF_succeed, State.readF_writeF_same, hvalue]
  case others => rw [State.readF_respond, State.readF_succeed, State.readF_writeF, if_neg hr, hF]
  case responses =>
    rw [State.respond_responses, State.succeed_responses, State.writeF_responses, hresp, List.append_assoc]
    rfl

end Sys2Proof.Machine
end

section
/-! PROOFS. What COMBINE computes (43_lagrange_interpolator.md R203, R206 to R209): the value at 0 of the polynomial the shares lie on, so the
secret of a split, whatever the order of the shares; and that no denominator is 0 when P is at least 2^32. -/

namespace Sys2Proof.Machine

open Sys2Proof.Claims

/-! ### When no share collides -/

section
variable {s : State}

/-- Shares with nonzero and pairwise distinct residues pass the checks of the share table. -/
theorem tableOK_of_distinct (hK : 2 ≤ s.K.toNat) (hmax : s.K.toNat ≤ s.cfg.NMAX) (hres : ∀ i < s.K.toNat, ¬ Reserved s i)
    (hnone : ∀ i < s.K.toNat, ¬ Collides s i) : TableOK s := by
  refine ⟨hK, hmax, hres, fun j hj i hij hsame => hnone j hj ⟨i, hij.trans hj, hij.ne, ?_⟩⟩
  have hx : s.SX.read i = s.SX.read j := hsame
  rw [hx]

/-- A table whose residues are given, nonzero and pairwise distinct passes its checks, and no share collides. -/
theorem tableOK_of_residues {x : Nat → Nat} (hK : 2 ≤ s.K.toNat) (hmax : s.K.toNat ≤ s.cfg.NMAX)
    (hx : ∀ k < s.K.toNat, (s.SX.read k).toNat % s.cfg.P = x k) (hzero : ∀ k < s.K.toNat, x k ≠ 0)
    (hinj : ∀ j < s.K.toNat, ∀ k < s.K.toNat, x j = x k → j = k) : TableOK s ∧ ∀ k < s.K.toNat, ¬ Collides s k := by
  have hnone : ∀ k < s.K.toNat, ¬ Collides s k := by
    rintro k hk ⟨j, hj, hne, hsame⟩
    rw [hx j hj, hx k hk] at hsame
    exact hne (hinj j hj k hk hsame)
  exact ⟨tableOK_of_distinct hK hmax (fun k hk hres => hzero k hk ((hx k hk).symm.trans hres)) hnone, hnone⟩

/-- `COMBINE` passes its tests exactly when the table is in order and no share collides. -/
theorem combineFailure_eq_none_iff : s.combineFailure = none ↔ TableOK s ∧ ∀ i < s.K.toNat, ¬ Collides s i := by
  rw [State.combineFailure, tests_eq_none, tests_eq_none, ← and_assoc, ← tableOK_iff, denominatorScan_eq_none]
  simp only [ne_eq, basisDen_eq_zero_iff_collides]

/-- With P at least 2^32 the residue of an x-coordinate is the x-coordinate, so only equal ones collide (43_lagrange_interpolator.md R209). -/
theorem not_collides_of_large (hP : 2 ^ 32 ≤ s.cfg.P) (hdiff : ∀ j < s.K.toNat, ∀ i < j, ¬ SameX s i j) :
    ∀ i < s.K.toNat, ¬ Collides s i := by
  rintro i hi ⟨j, hj, hne, hres⟩
  rw [Nat.mod_eq_of_lt ((s.SX.read j).isLt.trans_le hP), Nat.mod_eq_of_lt ((s.SX.read i).isLt.trans_le hP)] at hres
  have hsame := BitVec.eq_of_toNat_eq hres
  rcases Nat.lt_or_gt_of_ne hne with hlt | hlt
  · exact hdiff i hi j hlt hsame
  · exact hdiff j hj i hlt hsame.symm

/-! ### The codes with a large modulus -/

/-- Two groups of tests raise the codes of either, the second group's when the first passes. -/
theorem RaisesOnly.orElse_of_pass {a b : Option Failure} {l m : List Byte} (ha : RaisesOnly a l) (hb : a = none → RaisesOnly b m) :
    RaisesOnly (a <|> b) (l ++ m) := by
  intro f h
  obtain h | ⟨hpass, h⟩ := tests_eq_some.1 h
  · exact List.mem_append_left m (ha f h)
  · exact List.mem_append_right l (hb hpass f h)

/-- Once the scans pass, no share collides. -/
theorem not_collides_of_scan (hP : 2 ^ 32 ≤ s.cfg.P) (hscan : s.scanFailure = none) : ∀ i < s.K.toNat, ¬ Collides s i :=
  not_collides_of_large hP (scanFailure_eq_none.1 hscan).2

theorem State.combineFailure_raisesOnly_of_large (hP : 2 ^ 32 ≤ s.cfg.P) :
    RaisesOnly s.combineFailure [0x07, 0x0A, 0x08, 0x03] := by
  refine s.countFailure_raisesOnly.orElse (s.scanFailure_raisesOnly.orElse_of_pass (m := []) fun hscan => ?_)
  rw [State.denominatorScan_passes (not_collides_of_scan hP hscan)]
  exact raisesOnly_none

/-- An index at or above K fails before the denominator is computed. -/
theorem State.lbasisFailure_raisesOnly_of_large (i : Nat) (hP : 2 ^ 32 ≤ s.cfg.P) :
    RaisesOnly (s.lbasisFailure i) [0x07, 0x0A, 0x0B, 0x08, 0x03] := by
  refine s.countFailure_raisesOnly.orElse ((raisesOnly_raiseIf _ _).orElse_of_pass fun hindex =>
    s.scanFailure_raisesOnly.orElse_of_pass (m := []) fun hscan => ?_)
  have hi : i < s.K.toNat := Nat.not_le.1 (raiseIf_eq_none.1 hindex)
  rw [raiseIf_neg (basisDen_eq_zero_iff_collides.not.2 (not_collides_of_scan hP hscan i hi))]
  exact raisesOnly_none

/-- A command leaves 0 or a code its tests raise. -/
theorem code_of_raisesOnly {i : Instr} {t : State} {codes : List Byte} (h : RaisesOnly (failureOf i s) codes) (ht : exec i s = .next t) :
    t.CODE = 0 ∨ t.CODE ∈ codes := by
  obtain ⟨f, hf, rfl⟩ | ⟨-, rfl⟩ := exec_cases ht
  · exact .inr (h f hf)
  · exact .inl rfl

/-- A command that leaves code 0 has passed its tests and made its writes. -/
theorem exec_of_code_zero {i : Instr} {t : State} (ht : exec i s = .next t) (hcode : t.CODE = 0) :
    failureOf i s = none ∧ t = (effectOf i s).succeed := by
  obtain ⟨f, hf, rfl⟩ | hdone := exec_cases ht
  · have hmem := failureOf_raisesOnly s i f hf
    rw [show f.code.number = 0 from hcode] at hmem
    exact absurd hmem (zero_notMem_codesRaisedBy i)
  · exact hdone

end

/-! ### The basis values are Lagrange's at 0 -/

/-- Shares that do not collide have distinct x-coordinates in the field. -/
theorem xField_injOn {s : State} (hnone : ∀ i < s.K.toNat, ¬ Collides s i) : Set.InjOn (xField s) (Finset.range s.K.toNat) := by
  intro i hi j hj heq
  by_contra hne
  exact hnone i (Finset.mem_range.1 hi)
    ⟨j, Finset.mem_range.1 hj, Ne.symm hne, (ZMod.natCast_eq_natCast_iff' _ _ _).1 heq.symm⟩

section
variable {s : State} [Fact s.cfg.P.Prime]

/-- Lagrange's basis polynomial at 0, times the denominator, is the numerator. -/
theorem eval_basis_mul_prod {i : Nat} (hne : ∀ j ∈ (Finset.range s.K.toNat).erase i, xField s i - xField s j ≠ 0) :
    (Lagrange.basis (Finset.range s.K.toNat) (xField s) i).eval 0
        * ∏ j ∈ (Finset.range s.K.toNat).erase i, (xField s i - xField s j)
      = ∏ j ∈ (Finset.range s.K.toNat).erase i, (0 - xField s j) := by
  rw [Lagrange.basis, Polynomial.eval_prod, ← Finset.prod_mul_distrib]
  refine Finset.prod_congr rfl fun j hj => ?_
  simp only [Lagrange.basisDivisor, Polynomial.eval_mul, Polynomial.eval_C, Polynomial.eval_sub, Polynomial.eval_X]
  field_simp [hne j hj]

/-- The basis value of a share that does not collide is Lagrange's basis polynomial at 0 (43_lagrange_interpolator.md R201). -/
theorem cast_basis_eq_eval {i : Nat} (hcol : ¬ Collides s i) :
    (basis s.cfg.P s.xs s.K.toNat i : ZMod s.cfg.P) = (Lagrange.basis (Finset.range s.K.toNat) (xField s) i).eval 0 := by
  have hne : ∀ j ∈ (Finset.range s.K.toNat).erase i, xField s i - xField s j ≠ 0 := by
    intro j hj hzero
    obtain ⟨hji, hj⟩ := Finset.mem_erase.1 hj
    exact hcol ⟨j, Finset.mem_range.1 hj, hji, (ZMod.natCast_eq_natCast_iff' _ _ _).1 (sub_eq_zero.1 hzero).symm⟩
  exact mul_right_cancel₀ (Finset.prod_ne_zero_iff.2 hne) ((cast_basis_mul_prod hcol).trans (eval_basis_mul_prod hne).symm)

/-- The weighted sum of values of a polynomial of degree below K is its value at 0. -/
theorem sum_mul_basis_eq_eval (hnone : ∀ i < s.K.toNat, ¬ Collides s i) {f : Polynomial (ZMod s.cfg.P)}
    (hdeg : f.degree < (s.K.toNat : WithBot Nat)) :
    ∑ i ∈ Finset.range s.K.toNat, f.eval (xField s i) * (basis s.cfg.P s.xs s.K.toNat i : ZMod s.cfg.P) = f.eval 0 := by
  have hcard : f.degree < (Finset.range s.K.toNat).card := by rwa [Finset.card_range]
  conv_rhs => rw [Lagrange.eq_interpolate (xField_injOn hnone) hcard, Lagrange.interpolate_apply, Polynomial.eval_finsetSum]
  refine Finset.sum_congr rfl fun i hi => ?_
  rw [Polynomial.eval_mul, Polynomial.eval_C, cast_basis_eq_eval (hnone i (Finset.mem_range.1 hi))]

end

/-! ### COMBINE interpolates -/

/-- `COMBINE` writes the value at 0 of the polynomial of degree below K that the shares lie on (43_lagrange_interpolator.md R207). The modulus
is named apart from the state, for states that share a configuration. -/
theorem writesField_combine_of_polynomial {s : State} {P : Nat} (hP : s.cfg.P = P) (hok : TableOK s)
    (hnone : ∀ i < s.K.toNat, ¬ Collides s i) {f : Polynomial (ZMod P)} (hdeg : f.degree < (s.K.toNat : WithBot Nat))
    (hshares : ∀ i < s.K.toNat, (s.SY.read i : ZMod P) = f.eval ((s.SX.read i).toNat : ZMod P)) (d : Reg) :
    WritesField (.combine d) s d (f.eval 0).val := by
  subst hP
  have hprime := Fact.mk s.cfg.ok.prime
  have hvalue : (∑ i ∈ Finset.range s.K.toNat, s.SY.read i * basis s.cfg.P s.xs s.K.toNat i) % s.cfg.P = (f.eval 0).val := by
    refine eq_of_cast_eq (Nat.mod_lt _ s.cfg.ok.prime.pos) (ZMod.val_lt _) ?_
    rw [ZMod.natCast_mod, ZMod.natCast_zmod_val, ← sum_mul_basis_eq_eval hnone hdeg]
    push_cast
    exact Finset.sum_congr rfl fun i hi => by rw [hshares i (Finset.mem_range.1 hi)]; rfl
  rw [← hvalue]
  exact writesField_combine hok hnone d

/-! ### The polynomial through the shares -/

section
variable {s : State} [Fact s.cfg.P.Prime]

/-- The polynomial of degree below K through the shares of the table. -/
noncomputable def sharePolynomial (s : State) [Fact s.cfg.P.Prime] : Polynomial (ZMod s.cfg.P) :=
  Lagrange.interpolate (Finset.range s.K.toNat) (xField s) fun i => (s.SY.read i : ZMod s.cfg.P)

variable (hnone : ∀ i < s.K.toNat, ¬ Collides s i)
include hnone

theorem sharePolynomial_degree : (sharePolynomial s).degree < (s.K.toNat : WithBot Nat) := by
  have hdeg := Lagrange.degree_interpolate_lt (fun i => (s.SY.read i : ZMod s.cfg.P)) (xField_injOn hnone)
  rwa [Finset.card_range] at hdeg

theorem sharePolynomial_eval {i : Nat} (hi : i < s.K.toNat) : (s.SY.read i : ZMod s.cfg.P) = (sharePolynomial s).eval (xField s i) :=
  (Lagrange.eval_interpolate_at_node (fun i => (s.SY.read i : ZMod s.cfg.P)) (xField_injOn hnone) (Finset.mem_range.2 hi)).symm

end

/-! ### The polynomial of a split -/

/-- The polynomial whose coefficients are the first T entries of COEF (42_polynomial_evaluator.md R186). -/
noncomputable def splitPolynomial (s : State) : Polynomial (ZMod s.cfg.P) :=
  ∑ i : Fin s.T.toNat, Polynomial.C (s.COEF.read i : ZMod s.cfg.P) * Polynomial.X ^ (i : Nat)

theorem splitPolynomial_degree (s : State) : (splitPolynomial s).degree < (s.T.toNat : WithBot Nat) :=
  Polynomial.degree_sum_fin_lt fun i : Fin s.T.toNat => (s.COEF.read i : ZMod s.cfg.P)

theorem splitPolynomial_eval (s : State) (x : ZMod s.cfg.P) :
    (splitPolynomial s).eval x = ∑ i ∈ Finset.range s.T.toNat, (s.COEF.read i : ZMod s.cfg.P) * x ^ i := by
  rw [splitPolynomial, Polynomial.eval_finsetSum, ← Fin.sum_univ_eq_sum_range (fun i => (s.COEF.read i : ZMod s.cfg.P) * x ^ i)]
  simp

/-- The polynomial's value at 0 is its first coefficient. -/
theorem splitPolynomial_eval_zero {s : State} (hT : 0 < s.T.toNat) : (splitPolynomial s).eval 0 = (s.COEF.read 0 : ZMod s.cfg.P) := by
  rw [splitPolynomial_eval, Finset.sum_eq_single_of_mem 0 (Finset.mem_range.2 hT) fun i _ hi => by simp [hi]]
  simp

/-- A share that `SPLIT` writes lies on the polynomial. -/
theorem effectOf_split_eval {s : State} (hinv : s.Inv) {k : Nat} (hk : k < s.N.toNat) :
    ((effectOf .split s).SX.read k).toNat = k + 1
      ∧ ((effectOf .split s).SY.read k : ZMod s.cfg.P) = (splitPolynomial s).eval ((k + 1 : Nat) : ZMod s.cfg.P) := by
  obtain ⟨hx, hy⟩ := effectOf_split_share hinv (Nat.le_add_left 1 k) hk
  rw [Nat.add_sub_cancel] at hx hy
  refine ⟨hx, ?_⟩
  rw [hy, splitPolynomial_eval, ZMod.natCast_mod]
  push_cast
  rfl

/-! ### The statements -/

/-- Settles O45: once the scans pass, x-coordinates below 2^32 do not collide, so no denominator is 0. -/
theorem noZeroDenominatorForLargeP : Obligations.NoZeroDenominatorForLargeP := by
  unfold Obligations.NoZeroDenominatorForLargeP
  intro d i s t hP
  have hother : ∀ codes : List Byte, 0x05 ∉ codes → t.CODE = 0 ∨ t.CODE ∈ codes → t.CODE ≠ 0x05 := by
    rintro codes hnot (hzero | hmem) hfive
    · exact absurd (hzero.symm.trans hfive) (by decide)
    · exact hnot (hfive ▸ hmem)
  exact ⟨fun ht => hother _ (by decide) (code_of_raisesOnly (i := .combine d) (State.combineFailure_raisesOnly_of_large hP) ht),
    fun ht => hother _ (by decide) (code_of_raisesOnly (i := .lbasis d i) (State.lbasisFailure_raisesOnly_of_large i hP) ht)⟩

/-- Settles O46: the basis values are Lagrange's basis polynomials at 0, whose sum is the constant 1. -/
theorem basisValuesSumToOne : Obligations.BasisValuesSumToOne := by
  unfold Obligations.BasisValuesSumToOne
  intro d s hok hnone
  refine ⟨basis s.cfg.P s.xs s.K.toNat, fun i hi => writesField_lbasis hok hi (hnone i hi) d, ?_⟩
  have hprime := Fact.mk s.cfg.ok.prime
  have hdeg : (1 : Polynomial (ZMod s.cfg.P)).degree < (s.K.toNat : WithBot Nat) := by
    have ⟨htwo, _⟩ := hok
    rw [Polynomial.degree_one]
    exact_mod_cast Nat.lt_of_lt_of_le Nat.zero_lt_two htwo
  have hsum := sum_mul_basis_eq_eval hnone hdeg
  simp only [Polynomial.eval_one, one_mul] at hsum
  refine eq_of_cast_eq (Nat.mod_lt _ s.cfg.ok.prime.pos) s.cfg.ok.prime.one_lt ?_
  rw [ZMod.natCast_mod, Nat.cast_one, ← hsum]
  push_cast
  rfl

/-- Settles O47: the table passes its checks, and the weighted sum is Lagrange's interpolation at 0. -/
theorem combineInterpolatesAtZero : Obligations.CombineInterpolatesAtZero := by
  unfold Obligations.CombineInterpolatesAtZero
  intro d s f hK hmax hres hnone hdeg hshares
  exact writesField_combine_of_polynomial rfl (tableOK_of_distinct hK hmax hres hnone) hnone hdeg hshares d

/-- Settles O48: the shares lie on the split's polynomial at the residues 1 to N, which are distinct, nonzero and below P. -/
theorem sharesRecoverTheSecret : Obligations.SharesRecoverTheSecret := by
  unfold Obligations.SharesRecoverTheSecret
  intro d s t u pick hinv hexec hcode hcfg hTK hKN hpick hinj hcopied
  obtain ⟨hpass, rfl⟩ := exec_of_code_zero hexec hcode
  obtain ⟨hT, -, hN⟩ := splitFailure_eq_none.1 hpass
  have hx : ∀ k < u.K.toNat, (u.SX.read k).toNat = pick k + 1 := fun k hk =>
    (congrArg BitVec.toNat (hcopied k hk).1).trans (effectOf_split_eval hinv (hpick k hk)).1
  have hresidue : ∀ k < u.K.toNat, (u.SX.read k).toNat % u.cfg.P = pick k + 1 := fun k hk => by
    rw [hx k hk, hcfg]
    exact Nat.mod_eq_of_lt (lt_of_le_of_lt ((Nat.succ_le_of_lt (hpick k hk)).trans hN) s.cfg.ok.lt_prime)
  have hmax : u.K.toNat ≤ u.cfg.NMAX := hcfg ▸ hKN.trans hN
  obtain ⟨hok, hnone⟩ := tableOK_of_residues (hT.trans hTK) hmax hresidue (fun k _ => Nat.succ_ne_zero (pick k))
    fun j hj k hk hsame => hinj j hj k hk (Nat.succ.inj hsame)
  have hshares : ∀ k < u.K.toNat,
      (u.SY.read k : ZMod s.cfg.P) = (splitPolynomial s).eval ((u.SX.read k).toNat : ZMod s.cfg.P) := fun k hk => by
    rw [hx k hk, (hcopied k hk).2]
    exact (effectOf_split_eval hinv (hpick k hk)).2
  have hdeg : (splitPolynomial s).degree < (u.K.toNat : WithBot Nat) :=
    (splitPolynomial_degree s).trans_le (by exact_mod_cast hTK)
  have hsecret : ((splitPolynomial s).eval 0).val = s.COEF.read 0 := by
    rw [splitPolynomial_eval_zero (Nat.lt_of_lt_of_le Nat.zero_lt_two hT), ZMod.val_natCast, Nat.mod_eq_of_lt (hinv.coef_lt 0)]
  rw [← hsecret]
  exact writesField_combine_of_polynomial (congrArg Config.P hcfg) hok hnone hdeg hshares d

/-- Settles O49: both states' shares lie on the polynomial interpolated through the first state's. -/
theorem shareOrderIsIrrelevant : Obligations.ShareOrderIsIrrelevant := by
  unfold Obligations.ShareOrderIsIrrelevant
  intro d s t u σ hexec hcode hcfg hK hσ hcopied
  obtain ⟨hpass, -⟩ := exec_of_code_zero hexec hcode
  obtain ⟨hok, hnone⟩ := combineFailure_eq_none_iff.1 hpass
  have ⟨htwo, hmax, hres, _⟩ := hok
  have hprime := Fact.mk s.cfg.ok.prime
  have hmem : ∀ k < u.K.toNat, σ k < s.K.toNat := fun k hk => (hσ k).1 (hK ▸ hk)
  have hx : ∀ k < u.K.toNat, u.SX.read k = s.SX.read (σ k) := fun k hk => (hcopied k (hK ▸ hk)).1
  have hresidue : ∀ k < u.K.toNat, (u.SX.read k).toNat % u.cfg.P = s.xs (σ k) := fun k hk => by
    rw [hx k hk, hcfg]
    rfl
  obtain ⟨hok', hnone'⟩ := tableOK_of_residues (hK ▸ htwo) (hK ▸ hcfg ▸ hmax) hresidue (fun k hk => hres (σ k) (hmem k hk))
    fun j hj k hk hsame => σ.injective (by_contra fun hne => hnone (σ k) (hmem k hk) ⟨σ j, hmem j hj, hne, hsame⟩)
  have hshares : ∀ k < u.K.toNat,
      (u.SY.read k : ZMod s.cfg.P) = (sharePolynomial s).eval ((u.SX.read k).toNat : ZMod s.cfg.P) := fun k hk => by
    rw [hx k hk, (hcopied k (hK ▸ hk)).2]
    exact sharePolynomial_eval hnone (hmem k hk)
  have hvalue : t.readF d = ((sharePolynomial s).eval 0).val := by
    obtain ⟨t', ht', hread, -⟩ := writesField_combine_of_polynomial rfl hok hnone (sharePolynomial_degree hnone)
      (fun i hi => sharePolynomial_eval hnone hi) d
    rw [← hread, next_unique hexec ht']
  rw [hvalue]
  exact writesField_combine_of_polynomial (congrArg Config.P hcfg) hok' hnone' (hK ▸ sharePolynomial_degree hnone) hshares d

end Sys2Proof.Machine
end
